-- ==== Sys2Proof/Word.lean ====
section
/-! DEFINITION. The words the block handles: bytes, 12-bit codes, 32-bit register words, register numbers.
Spec: 00_scope.md R8, R12, R15; 30_encoding.md R70. -/

namespace Sys2Proof

/-- A byte of IN or PLANE, and one colour-table index (`INDEX_BITS = 8`, 00_scope.md R8). -/
abbrev Byte := BitVec 8

/-- A host-visible register's value (register width 32, 00_scope.md R8). -/
abbrev Word := BitVec 32

/-- A code value: at most `MAX_CODE_BITS = 12` bits, zero-extended (30_encoding.md R71). -/
abbrev Code := BitVec 12

/-- A register number, 0 to 15 (30_encoding.md R70). -/
abbrev RegNum := BitVec 4

/-- An address of IN or PLANE: both capacities are at most `2^32` (00_scope.md R9). -/
abbrev Addr := BitVec 32

/-- `TABLE_CAP`, the number of code-table slots (00_scope.md R8). -/
abbrev tableCap : Nat := 4096

/-- `MAX_CODE_BITS` (00_scope.md R8). -/
abbrev maxCodeBits : Nat := 12

end Sys2Proof
end

