-- ==== Sys2Proof/Config.lean ====
section
/-! DEFINITION. What an instance fixes (the open parameters of 00_scope.md R9) and the one free value
(20_memory.md R63: "any value" is a free draw under no law). -/

namespace Sys2Proof

/-- The open parameters of 00_scope.md R9. They are constants of an instance; they stand in State so that
every claim is about every instance (log 3). -/
structure Params where
  /-- `GROW_BIAS`, 0 or 1: the growth threshold is `2^CODE_SIZE - GROW_BIAS` (44_data_codes.md R136). -/
  growBias : Fin 2
  /-- `PLANE_CAP`, the number of bytes of PLANE. -/
  planeCap : Nat
  /-- `IN_CAP`, the number of bytes of IN. -/
  inCap : Nat
  deriving DecidableEq, Repr

/-- The defaults of R9: the source's growth threshold, and capacities that no frame can exceed. -/
def Params.default : Params := { growBias := 1, planeCap := 4294967296, inCap := 4294967296 }

/-- R9: each capacity is a natural, at most `2^32`. -/
abbrev Params.wf (p : Params) : Prop := p.planeCap ≤ 4294967296 ∧ p.inCap ≤ 4294967296

/-- FREE VALUE (log 22): the byte a `PLRD` returns where 40_host_commands.md R94 says "any value", for the
number of the draw and the address read. It has no body, so no claim can rest on what it is. -/
opaque Config.freePlaneByte : Nat → Nat → Byte

end Sys2Proof
end

