-- ==== Sys2Proof/Syntax.lean ====
section
/-! DEFINITION. The instructions: one constructor per row of spec/opcode_table.json, and the accesses a host
makes (the raw form of format H and of the two memory ports). Spec: 30_encoding.md R70, R74, R76. -/

namespace Sys2Proof

/-- One constructor per row of the opcode table. The six format C rows are the classes of 30_encoding.md R74;
a data code carries its value, which is its only operand. -/
inductive Instr where
  /-- `CLR`, the clear code (43_control_codes.md R120). -/
  | clr
  /-- `EOI`, the end-of-information code (43_control_codes.md R121). -/
  | eoi
  /-- `LIT`, a literal data code (44_data_codes.md R131). -/
  | lit (c : Code)
  /-- `REF`, a reference to an existing entry (44_data_codes.md R132). -/
  | ref (c : Code)
  /-- `KWK`, the code of the entry about to be assigned (44_data_codes.md R133). -/
  | kwk (c : Code)
  /-- `BAD`, an invalid code (44_data_codes.md R134). -/
  | bad (c : Code)
  /-- `START`, begin a frame decode (40_host_commands.md R92). -/
  | start
  /-- `REGWR n, d`, a register write that is not `START` (40_host_commands.md R91). -/
  | regwr (n : RegNum) (d : Word)
  /-- `REGRD n`, a register read (40_host_commands.md R90). -/
  | regrd (n : RegNum)
  /-- `INWR a, v`, write a byte of IN (40_host_commands.md R93). -/
  | inwr (a : Addr) (v : Byte)
  /-- `PLRD a`, read a byte of PLANE (40_host_commands.md R94). -/
  | plrd (a : Addr)
  deriving DecidableEq, Repr

/-- What the host puts on the block's ports: a register write or read (format H, the register number carried
beside the word, 30_encoding.md R70), or an access of one of the two memory ports (R76). -/
inductive Access where
  | regWrite (n : RegNum) (d : Word)
  | regRead (n : RegNum)
  | inWrite (a : Addr) (v : Byte)
  | planeRead (a : Addr)
  deriving DecidableEq, Repr

end Sys2Proof
end

