-- ==== Sys2Proof/Machine/State.lean ====
section
/-! DEFINITION. The machine's state as plain data, its reset value, and the reasons a step can stop.
Spec: 10_state.md R20 to R44, 20_memory.md R50 to R54, 70_reset_and_hazards.md R170. -/

namespace Sys2Proof.Machine

/-- A byte memory: the addresses that hold a value, each with its byte. An address not listed holds no value
("A model must treat an unspecified memory byte as having no value", 10_state.md R44). -/
abbrev Memory := List Host.Cell

/-- The one canonical form: addresses strictly rising. (An unlisted address has no value, so no listed entry can
equal what an unlisted one reads as.) -/
abbrev Memory.wf (m : Memory) : Prop := m.Pairwise fun x y => x.1 < y.1

/-- `STATUS.STATE` (10_state.md R23). -/
inductive RunState where
  | idle
  | busy
  | done
  | fault
  deriving DecidableEq, Repr

/-- `CAUSE.CAUSE` (10_state.md R24, 60_exceptions.md R151); the values 4 to 15 are never produced. -/
inductive Cause where
  | none
  | badParam
  | badCode
  | decodeOverrun
  deriving DecidableEq, Repr

/-- The RW registers 4 to 9: the configuration of a frame decode (10_state.md R26 to R31, R42). -/
structure FrameConfig where
  inLen : Word
  minCode : Byte
  maxIdx : Byte
  cw : BitVec 16
  ch : BitVec 16
  left : BitVec 16
  top : BitVec 16
  iw : BitVec 16
  ih : BitVec 16
  disposal : BitVec 3
  tflag : Bool
  tidx : Byte
  bgidx : Byte
  deriving DecidableEq, Repr

/-- The registers `STATUS`, `CAUSE` and `FBYTE` (10_state.md R23 to R25). -/
structure Status where
  run : RunState
  eoi : Bool
  trunc : Bool
  cause : Cause
  fbyte : Word
  fbit : BitVec 3
  deriving DecidableEq, Repr

/-- What happens next, from outside (log 1): the decoder takes its turn, the host makes one access, or the
platform asserts hardware reset (log 12). -/
inductive Turn where
  | decoder
  | host (a : Access)
  | reset
  deriving DecidableEq, Repr

/-- A value the host was given by one of its reads (log 2). -/
inductive Seen where
  | reg (n : RegNum) (v : Word)
  | plane (a : Addr) (v : Byte)
  deriving DecidableEq, Repr

/-- The state: the block's own (10_state.md R20), the constants of the instance (00_scope.md R9), and the
model's record of the outside (`turns`, `seen`, `draws`; logs 1, 2, 22). `TLEN` is the length of `table` (log 9);
the read-only registers are views of the working registers (R20). -/
structure State where
  params : Params
  cfg : FrameConfig
  status : Status
  /-- `CODE_SIZE` (10_state.md R37). -/
  codeSize : BitVec 4
  /-- `HAS_PREV` (10_state.md R37). -/
  hasPrev : Bool
  /-- `PREV` (10_state.md R37). -/
  prev : Code
  /-- `CURSOR` (10_state.md R37). -/
  cursor : Word
  /-- `BYTEPOS` (10_state.md R38). -/
  bytePos : Word
  /-- `BITOFF` (10_state.md R38). -/
  bitOff : BitVec 3
  /-- The slots `TABLE[0 .. TLEN-1]` in use (10_state.md R40). -/
  table : List (List Byte)
  /-- IN (20_memory.md R51). -/
  input : Memory
  /-- PLANE (20_memory.md R52). -/
  plane : Memory
  /-- "a frame decode has zeroed the plane for the current `CW`, `CH`" (40_host_commands.md R94; log 6). -/
  planeValid : Bool
  turns : List Turn
  seen : List Seen
  draws : Nat
  deriving DecidableEq, Repr

/-- The machine stops with a fault. (The block's own faults are states it goes on from, log 15.) -/
inductive Fault where
  /-- Raised by `INWR` at an address at or above `IN_CAP`, which does not exist (20_memory.md R50; log 8).
  Safe: the spec gives such a write no effect. -/
  | inAddress
  /-- Raised by `REF`, `KWK`, and by `LIT` after a previous code, when a slot they look up is not in use or its
  sequence has no first index (10_state.md R40; log 10). Safe: by R43 no run reaches such a state. -/
  | tableSlot
  deriving DecidableEq, Repr

/-- The machine gives a step no meaning. -/
inductive Refusal where
  /-- Raised by an arm of exec whose instruction has no meaning yet. Safe. -/
  | notModelled (mnemonic : String)
  /-- Raised by `START`, and by a decoder step, whose frame would read an IN byte never written since reset
  (70_reset_and_hazards.md R173, "refuse it"; log 4). Safe. -/
  | unwrittenInput
  /-- Raised by `INWR` while `BUSY`: "no move in the model" (20_memory.md R62, R63; log 7). Unsafe only in that
  no claim speaks of a host that makes the move. -/
  | inWriteWhileBusy
  deriving DecidableEq, Repr

/-- Every configuration field after reset (10_state.md R44). -/
def FrameConfig.reset : FrameConfig :=
  { inLen := 0#32, minCode := 0#8, maxIdx := 0#8, cw := 0#16, ch := 0#16, left := 0#16, top := 0#16, iw := 0#16,
    ih := 0#16, disposal := 0#3, tflag := false, tidx := 0#8, bgidx := 0#8 }

/-- Every status field after reset (10_state.md R44). -/
def Status.reset : Status :=
  { run := .idle, eoi := false, trunc := false, cause := .none, fbyte := 0#32, fbit := 0#3 }

/-- An instance with parameters `p` right after hardware reset (10_state.md R44, 70_reset_and_hazards.md R170). -/
def State.resetOf (p : Params) : State :=
  { params := p, cfg := FrameConfig.reset, status := Status.reset, codeSize := 0#4, hasPrev := false, prev := 0#12,
    cursor := 0#32, bytePos := 0#32, bitOff := 0#3, table := [], input := [], plane := [], planeValid := false,
    turns := [], seen := [], draws := 0 }

/-- The default instance right after hardware reset (10_state.md R44, 00_scope.md R9). -/
def State.reset : State := State.resetOf Params.default

end Sys2Proof.Machine
end

