-- ==== Sys2Proof/Machine/Ops.lean ====
section
/-! DEFINITION. The named operations over the memories and the registers, fault entry (60_exceptions.md R159)
and hardware reset (70_reset_and_hazards.md R170). -/

namespace Sys2Proof.Machine

/-! ### Byte memories -/

/-- The byte at an address, none where it has no value (10_state.md R44). -/
def Memory.read : Memory → Nat → Option Byte
  | [], _ => none
  | (k, b) :: m, a => if k = a then some b else Memory.read m a

/-- Store one byte, keeping the addresses rising. -/
def Memory.write : Memory → Nat → Byte → Memory
  | [], a, v => [(a, v)]
  | (k, b) :: m, a, v =>
    if a < k then (a, v) :: (k, b) :: m
    else if a = k then (a, v) :: m
    else (k, b) :: Memory.write m a v

/-- Store 0 at every address below `n` (40_host_commands.md R92 step 3). -/
def Memory.zeroBelow (n : Nat) (m : Memory) : Memory :=
  (List.range n).map (fun a => (a, 0#8)) ++ m.filter fun c => decide (n ≤ c.1)

/-- Does every address below `n` hold a value (70_reset_and_hazards.md R173). -/
def Memory.covers (m : Memory) (n : Nat) : Bool := (List.range n).all fun a => (Memory.read m a).isSome

/-! ### The fetch position and the cursor -/

/-- `BITPOS = 8*BYTEPOS + BITOFF` (10_state.md R38). -/
def bitPos (s : State) : Nat := 8 * s.bytePos.toNat + s.bitOff.toNat

/-- `BITPOS <- n` (41_fetch.md R102). -/
def setBitPos (n : Nat) (s : State) : State :=
  { s with bytePos := BitVec.ofNat 32 (n / 8), bitOff := BitVec.ofNat 3 (n % 8) }

/-- FETCH's effect on the state: `BITPOS` moves past the code, by the width in force (41_fetch.md R102, R103). -/
def advance (s : State) : State := setBitPos (bitPos s + s.codeSize.toNat) s

/-- `CW*CH`, the number of canvas pixels (20_memory.md R52). -/
def canvas (s : State) : Nat := s.cfg.cw.toNat * s.cfg.ch.toNat

/-- `PlaneWrite(a, v)` (00_scope.md R13). -/
def planeWrite (a : Nat) (v : Byte) (s : State) : State := { s with plane := Memory.write s.plane a v }

/-- `CURSOR <- CURSOR + 1`. -/
def stepCursor (s : State) : State := { s with cursor := s.cursor + 1#32 }

/-! ### The register file -/

/-- The value of `STATUS.STATE` (10_state.md R23). -/
def RunState.bits : RunState → BitVec 2
  | .idle => 0#2
  | .busy => 1#2
  | .done => 2#2
  | .fault => 3#2

/-- The value of `CAUSE.CAUSE` (10_state.md R24, 60_exceptions.md R151). -/
def Cause.bits : Cause → BitVec 4
  | .none => 0#4
  | .badParam => 1#4
  | .badCode => 2#4
  | .decodeOverrun => 3#4

/-- `TLEN`, the number of slots in use (10_state.md R37). -/
def tlen (s : State) : Nat := s.table.length

/-- The 32-bit value of register `n` (10_state.md R22 to R36, 40_host_commands.md R90). -/
def regRead (s : State) (n : RegNum) : Word :=
  match n.toNat with
  | 1 => 0#28 ++ BitVec.ofBool s.status.trunc ++ BitVec.ofBool s.status.eoi ++ s.status.run.bits
  | 2 => 0#21 ++ s.status.fbit ++ 0#4 ++ s.status.cause.bits
  | 3 => s.status.fbyte
  | 4 => s.cfg.inLen
  | 5 => 0#16 ++ s.cfg.maxIdx ++ s.cfg.minCode
  | 6 => s.cfg.ch ++ s.cfg.cw
  | 7 => s.cfg.top ++ s.cfg.left
  | 8 => s.cfg.ih ++ s.cfg.iw
  | 9 => 0#8 ++ s.cfg.bgidx ++ s.cfg.tidx ++ 0#4 ++ BitVec.ofBool s.cfg.tflag ++ s.cfg.disposal
  | 10 => s.bytePos
  | 11 => s.cursor
  | 12 => 0#12 ++ s.prev ++ s.bitOff ++ BitVec.ofBool s.hasPrev ++ s.codeSize
  | 13 => 0#19 ++ BitVec.ofNat 13 (tlen s)
  | _ => 0#32

/-- Store the named fields of `d` in register `n` (40_host_commands.md R91); the registers that are not RW
ignore the write. Writing `CANVAS` ends the host's claim on the old plane (40_host_commands.md R94; log 6). -/
def regWrite (n : RegNum) (d : Word) (s : State) : State :=
  match n.toNat with
  | 4 => { s with cfg := { s.cfg with inLen := d } }
  | 5 => { s with cfg := { s.cfg with minCode := d.extractLsb' 0 8, maxIdx := d.extractLsb' 8 8 } }
  | 6 => { s with cfg := { s.cfg with cw := d.extractLsb' 0 16, ch := d.extractLsb' 16 16 }, planeValid := false }
  | 7 => { s with cfg := { s.cfg with left := d.extractLsb' 0 16, top := d.extractLsb' 16 16 } }
  | 8 => { s with cfg := { s.cfg with iw := d.extractLsb' 0 16, ih := d.extractLsb' 16 16 } }
  | 9 => { s with cfg := { s.cfg with disposal := d.extractLsb' 0 3, tflag := d.getLsbD 3, tidx := d.extractLsb' 8 8, bgidx := d.extractLsb' 16 8 } }
  | _ => s

/-! ### Fault entry and reset -/

/-- `TLEN <- 0; HAS_PREV <- 0`: the table is released (43_control_codes.md R122, 60_exceptions.md R159). -/
def release (s : State) : State := { s with table := [], hasPrev := false }

/-- `raise F(p)` (60_exceptions.md R159): the cause and the start bit of the offending code are recorded, the
table is released, `STATE <- FAULT`; everything else keeps its value. -/
def raiseFault (f : Cause) (p : Nat) (s : State) : State :=
  { release s with
    status := { s.status with
      cause := f, fbyte := BitVec.ofNat 32 (p / 8), fbit := BitVec.ofNat 3 (p % 8), run := .fault } }

/-- Hardware reset (70_reset_and_hazards.md R170): every register at its reset value, both memories
unspecified. The instance, the rest of the schedule and what the host has seen are outside the block. -/
def hardwareReset (s : State) : State :=
  { State.resetOf s.params with turns := s.turns, seen := s.seen, draws := s.draws }

end Sys2Proof.Machine
end

