-- ==== Sys2Proof/Machine/Cursor.lean ====
section
/-! DEFINITION. The cursor's two ways over the canvas: the skip of outside pixels (42_cursor_skip.md R110 to
R113) and the writing of a sequence (44_data_codes.md R138). -/

namespace Sys2Proof.Machine

/-- `INSIDE(a)`: is canvas position `a` in the image rectangle (42_cursor_skip.md R110). The sums are naturals,
so a rectangle that reaches beyond 65535 does not wrap. -/
def inside (f : FrameConfig) (a : Nat) : Bool :=
  let x := a % f.cw.toNat
  let y := a / f.cw.toNat
  decide (f.left.toNat ≤ x ∧ x < f.left.toNat + f.iw.toNat ∧ f.top.toNat ≤ y ∧ y < f.top.toNat + f.ih.toNat)

/-- Pass one outside position: paint it under Retain (42_cursor_skip.md R112), then move on. -/
def passOutside (s : State) : State :=
  stepCursor (if s.cfg.disposal = 1#3 then planeWrite s.cursor.toNat s.cfg.tidx s else s)

/-- The outside-rectangle loop with at most `n` turns (42_cursor_skip.md R111); the bound `CURSOR < CW*CH` is
tested before `INSIDE` (R113). -/
def skipLoop : Nat → State → State
  | 0, s => s
  | n + 1, s =>
    if s.cursor.toNat < canvas s ∧ inside s.cfg s.cursor.toNat = false then skipLoop n (passOutside s) else s

/-- `SKIP` (42_cursor_skip.md R111): the loop turns at most once for each position left (41_fetch.md R103). -/
def skip (s : State) : State := skipLoop (canvas s - s.cursor.toNat) s

/-- Write a sequence at the cursor, one position per index (44_data_codes.md R138): the state after the indices
that fitted, and whether all of them did. -/
def emit : List Byte → State → State × Bool
  | [], s => (s, true)
  | b :: bs, s =>
    if s.cursor.toNat < canvas s then emit bs (stepCursor (planeWrite s.cursor.toNat b s)) else (s, false)

end Sys2Proof.Machine
end

