-- ==== Sys2Proof/Machine/Flags.lean ====
section
/-! DEFINITION. The three flags (10_state.md R39): `HAS_PREV`, set by MARK (44_data_codes.md R139); `EOI` and
`TRUNC`, written at the end of a frame decode (43_control_codes.md R122) and cleared by START. -/

namespace Sys2Proof.Machine

/-- The two normal ends of a frame decode (43_control_codes.md R122). -/
inductive EndKind where
  | eoi
  | trunc
  deriving DecidableEq, Repr

/-- `end(kind)` (43_control_codes.md R122): the flag of the kind is set, the table released, `STATE <- DONE`. -/
def endFrame (k : EndKind) (s : State) : State :=
  { release s with
    status := { s.status with
      eoi := s.status.eoi || (k == .eoi), trunc := s.status.trunc || (k == .trunc), run := .done } }

/-- `MARK(c)` (44_data_codes.md R139). -/
def mark (c : Code) (s : State) : State := { s with hasPrev := true, prev := c }

/-- START's step 1: the result of the previous frame decode and the working registers are cleared
(40_host_commands.md R92). `STATE` is left for the later steps to write. -/
def clearResults (s : State) : State :=
  { release s with
    status := { s.status with eoi := false, trunc := false, cause := .none, fbyte := 0#32, fbit := 0#3 },
    bytePos := 0#32, bitOff := 0#3, cursor := 0#32, codeSize := 0#4, prev := 0#12 }

end Sys2Proof.Machine
end

