-- ==== Sys2Proof/WellFormed.lean ====
section
/-! DEFINITION. Which instructions are well formed. A code's class depends on the decoder's state
(30_encoding.md R74, R75), and an address must exist in the instance, so the check takes that context. -/

namespace Sys2Proof

/-- What the class of a code depends on (30_encoding.md R74): `MAXIDX`, `HAS_PREV` and `TLEN` as they are when
the code is fetched. -/
structure CodeCtx where
  maxIdx : Byte
  hasPrev : Bool
  tlen : Nat
  deriving DecidableEq, Repr

/-- The clear code's value, `MAXIDX + 1` (30_encoding.md R74 row 1). -/
def CodeCtx.clearCode (x : CodeCtx) : Nat := x.maxIdx.toNat + 1

/-- The end-of-information code's value, `MAXIDX + 2` (30_encoding.md R74 row 2). -/
def CodeCtx.eoiCode (x : CodeCtx) : Nat := x.maxIdx.toNat + 2

/-- The first code value that is neither a literal nor a sentinel, `MAXIDX + 3`. -/
def CodeCtx.firstEntry (x : CodeCtx) : Nat := x.maxIdx.toNat + 3

/-- Is the instruction one that the context and the instance can produce: each class of 30_encoding.md R74 has
its condition; `REGWR` is a write that is not `START` (R76); addresses lie in their space (20_memory.md R50). -/
def Instr.wf (p : Params) (x : CodeCtx) : Instr → Bool
  | .clr => true
  | .eoi => true
  | .lit c => decide (c.toNat ≤ x.maxIdx.toNat)
  | .ref c => decide (x.firstEntry ≤ c.toNat ∧ c.toNat < x.tlen)
  | .kwk c => decide (x.firstEntry ≤ c.toNat ∧ c.toNat = x.tlen ∧ x.hasPrev = true ∧ x.tlen < tableCap)
  | .bad c => decide (x.firstEntry ≤ c.toNat ∧ (x.tlen < c.toNat ∨ (c.toNat = x.tlen ∧ x.hasPrev = false)))
  | .start => true
  | .regwr n d => !(n == 0#4 && d.getLsbD 0)
  | .regrd _ => true
  | .inwr a _ => decide (a.toNat < p.inCap)
  | .plrd a => decide (a.toNat < p.planeCap)

end Sys2Proof
end

