-- ==== Sys2Proof/Decode.lean ====
section
/-! DEFINITION. From bits to instructions and back. Format C: the code stream of IN (20_memory.md R55,
30_encoding.md R71, R74). Format H and the memory ports: host accesses (30_encoding.md R76). Decoding is total:
30_encoding.md R75 gives every code value a class, and R76 and R91 every access a meaning. -/

namespace Sys2Proof

/-! ### The code stream -/

/-- Stream bit `q`: bit `q mod 8` of the byte at IN address `q div 8` (20_memory.md R55); none where that byte
has no value. -/
def streamBit (read : Nat → Option Byte) (q : Nat) : Option Bool :=
  (read (q / 8)).map fun b => b.getLsbD (q % 8)

/-- The value of the `w`-bit code that starts at stream bit `p`: the sum over `j < w` of `b(p+j) * 2^j`
(30_encoding.md R71, 41_fetch.md R102). None as soon as one of its bits has no value. -/
def extractCode (read : Nat → Option Byte) (p : Nat) : Nat → Option Nat
  | 0 => some 0
  | j + 1 =>
    match extractCode read p j, streamBit read (p + j) with
    | some c, some b => some (c + b.toNat * 2 ^ j)
    | _, _ => none

/-! ### The classes of a code -/

/-- The class of a fetched code (30_encoding.md R74, first matching row). -/
def decodeCode (x : CodeCtx) (c : Code) : Instr :=
  if c.toNat = x.clearCode then .clr
  else if c.toNat = x.eoiCode then .eoi
  else if c.toNat ≤ x.maxIdx.toNat then .lit c
  else if c.toNat < x.tlen then .ref c
  else if c.toNat = x.tlen ∧ x.hasPrev = true ∧ x.tlen < tableCap then .kwk c
  else .bad c

/-! ### Host accesses -/

/-- The operation a host access is (30_encoding.md R76): a write of register 0 with bit 0 set is `START`; every
other write is `REGWR`. -/
def decodeAccess : Access → Instr
  | .regWrite n d => if n = 0#4 ∧ d.getLsbD 0 = true then .start else .regwr n d
  | .regRead n => .regrd n
  | .inWrite a v => .inwr a v
  | .planeRead a => .plrd a

/-! ### A word of the opcode table -/

/-- The context in which a format C word of the opcode table is read (log 13): a decoder with `MAXIDX = 0`,
`HAS_PREV = 1` and four slots in use, in which each of the six classes has a code value (0 is `LIT`, 1 `CLR`,
2 `EOI`, 3 `REF`, 4 `KWK`, every other value `BAD`). -/
def tableWordCtx : CodeCtx := { maxIdx := 0#8, hasPrev := true, tlen := 4 }

/-- The instruction the decoder reads from a word of the opcode table: up to 16 bits, a 12-bit code in
`tableWordCtx`; 17 to 32 bits, a word written to register 0 (the table gives a format H row no register
number). The memory ports have no encoded form (30_encoding.md R76). -/
def decodeTableWord (nbits w : Nat) : Option Instr :=
  if nbits = 0 then none
  else if nbits ≤ 16 then some (decodeCode tableWordCtx (BitVec.ofNat 12 w))
  else if nbits ≤ 32 then some (decodeAccess (.regWrite 0#4 (BitVec.ofNat 32 w)))
  else none

/-! ### Encoding -/

/-- An encoded instruction: the value of a code, or a host access. -/
inductive Encoded where
  | code (c : Code)
  | access (a : Access)
  deriving DecidableEq, Repr

/-- The encoding of an instruction: the code value of its row of 30_encoding.md R74, or the access of R76.
`START` is `REGWR 0, 1` (R82). -/
def encode (x : CodeCtx) : Instr → Encoded
  | .clr => .code (BitVec.ofNat 12 x.clearCode)
  | .eoi => .code (BitVec.ofNat 12 x.eoiCode)
  | .lit c => .code c
  | .ref c => .code c
  | .kwk c => .code c
  | .bad c => .code c
  | .start => .access (.regWrite 0#4 1#32)
  | .regwr n d => .access (.regWrite n d)
  | .regrd n => .access (.regRead n)
  | .inwr a v => .access (.inWrite a v)
  | .plrd a => .access (.planeRead a)

/-- Decode an encoded instruction. -/
def decode (x : CodeCtx) : Encoded → Instr
  | .code c => decodeCode x c
  | .access a => decodeAccess a

/-- The bits of a code, least significant first (30_encoding.md R81). -/
def codeBits (c w : Nat) : List Bool := (List.range w).map fun j => c.testBit j

/-- The byte made of stream bits `8k` to `8k+7`, bit `8k+i` going to bit `i`; missing bits are 0 (R81). -/
def packByte (bits : List Bool) (k : Nat) : Byte :=
  BitVec.ofNat 8 ((List.range 8).foldl (fun acc i => acc + (bits.getD (8 * k + i) false).toNat * 2 ^ i) 0)

/-- Cut a bit stream into bytes (30_encoding.md R81). -/
def packBits (bits : List Bool) : List Byte :=
  (List.range ((bits.length + 7) / 8)).map (packByte bits)

/-- The bit stream of a listing of codes, each a value and its width (30_encoding.md R81). -/
def listingBits (codes : List (Nat × Nat)) : List Bool := codes.flatMap fun c => codeBits c.1 c.2

/-- Assemble a listing into the bytes of IN, from address 0 (30_encoding.md R81). -/
def assemble (codes : List (Nat × Nat)) : List Byte := packBits (listingBits codes)

end Sys2Proof
end

