-- ==== Sys2Proof/Machine/Operands.lean ====
section
/-! DEFINITION. Where a code's operands come from: its bits in IN (41_fetch.md R101, R102), the context that
classifies it (30_encoding.md R74), and the table slots it names (10_state.md R40). -/

namespace Sys2Proof.Machine

/-- `MAXIDX`, `HAS_PREV` and `TLEN` as they are when the code is fetched (30_encoding.md R74). -/
def codeCtx (s : State) : CodeCtx := { maxIdx := s.cfg.maxIdx, hasPrev := s.hasPrev, tlen := tlen s }

/-- What a fetch finds. -/
inductive Fetched where
  /-- Fewer than `CODE_SIZE` bits are left (41_fetch.md R101). -/
  | exhausted
  /-- A byte of the code was never written since reset (70_reset_and_hazards.md R173). -/
  | unwritten
  /-- The code's value (41_fetch.md R102). -/
  | code (c : Code)
  deriving DecidableEq, Repr

/-- Are fewer than `CODE_SIZE` bits left in IN (41_fetch.md R101). -/
def exhausted (s : State) : Bool := decide (8 * s.cfg.inLen.toNat < bitPos s + s.codeSize.toNat)

/-- The code at the fetch position (41_fetch.md R101, R102); `BITPOS` is moved by the code's own meaning. -/
def fetch (s : State) : Fetched :=
  if exhausted s = true then .exhausted
  else
    match extractCode (Memory.read s.input) (bitPos s) s.codeSize.toNat with
    | none => .unwritten
    | some c => .code (BitVec.ofNat 12 c)

/-- `TABLE[i]`, none where the slot is not in use (10_state.md R40; log 10). -/
def entry (s : State) (i : Nat) : Option (List Byte) := s.table[i]?

/-- `first(TABLE[i])` (00_scope.md R13), none where there is none (log 10). -/
def firstOf (s : State) (i : Nat) : Option Byte := (entry s i).bind List.head?

end Sys2Proof.Machine
end

