-- ==== Sys2Proof/Machine/Table.lean ====
section
/-! DEFINITION. The code table: its initial content (10_state.md R40), APPEND (44_data_codes.md R135), GROW
(R136), and what a data code adds (R130, R137). -/

namespace Sys2Proof.Machine

/-- The initial table: one single-index entry per literal value `0..=max`, then the clear and the EOI slot,
which hold the empty sequence (10_state.md R40; log 18). -/
def initialTable (maxIdx : Byte) : List (List Byte) :=
  (List.range (maxIdx.toNat + 1)).map (fun i => [BitVec.ofNat 8 i]) ++ [[], []]

/-- The decoder's table, width and flag as START and every clear code build them (40_host_commands.md R92 step 4,
43_control_codes.md R120). -/
def rebuild (s : State) : State :=
  { s with table := initialTable s.cfg.maxIdx, codeSize := BitVec.ofNat 4 (s.cfg.minCode.toNat + 1), hasPrev := false }

/-- `APPEND s` (44_data_codes.md R135). -/
def append (e : List Byte) (s : State) : State := { s with table := s.table ++ [e] }

/-- `GROW` (44_data_codes.md R136), tested once, directly after an append. -/
def grow (s : State) : State :=
  if tlen s = 2 ^ s.codeSize.toNat - s.params.growBias.val ∧ s.codeSize.toNat < maxCodeBits then
    { s with codeSize := s.codeSize + 1#4 }
  else s

/-- What a data code adds to the table: nothing when there is no previous code or the table is full (44_data_codes.md
R130, R137), else `TABLE[PREV] ++ [k]`, and the width may grow. None where `PREV` names no slot (log 10). -/
def learn (k : Byte) (s : State) : Option State :=
  if s.hasPrev = true ∧ tlen s < tableCap then
    (entry s s.prev.toNat).map fun e => grow (append (e ++ [k]) s)
  else some s

end Sys2Proof.Machine
end

