-- ==== Sys2Proof/Machine/ControlCodes.lean ====
section
/-! DEFINITION. The meanings of the clear and end-of-information codes (43_control_codes.md R120, R121), and
exhausted input (41_fetch.md R101). -/

namespace Sys2Proof.Machine

/-- What every fetched code does before its own case (41_fetch.md R100): FETCH moves `BITPOS` past it, then SKIP
runs. -/
def codePreamble (s : State) : State := skip (advance s)

/-- `CLR` (43_control_codes.md R120). -/
def execClr (s : State) : Host.Outcome State Fault Refusal := .next (rebuild (codePreamble s))

/-- `EOI` (43_control_codes.md R121). -/
def execEoi (s : State) : Host.Outcome State Fault Refusal := .next (endFrame .eoi (codePreamble s))

/-- Exhausted input (41_fetch.md R101): no code is fetched, `BITPOS` does not move, SKIP does not run. -/
def exhaustedInput (s : State) : State := endFrame .trunc s

end Sys2Proof.Machine
end

