-- ==== Sys2Proof/Machine/DataCodes.lean ====
section
/-! DEFINITION. The meanings of the data codes LIT, REF, KWK and BAD (44_data_codes.md R131 to R134), each over
the shared parts, and the common procedure DATA as R130 writes it, with which they agree on every state a run
reaches. -/

namespace Sys2Proof.Machine

/-- EMIT, then MARK; or the fault `DecodeOverrun` at the first index that does not fit (44_data_codes.md R138,
R139). `p` is the code's start bit. -/
def emitAndMark (e : List Byte) (c : Code) (p : Nat) (s : State) : State :=
  match emit e s with
  | (t, true) => mark c t
  | (t, false) => raiseFault .decodeOverrun p t

/-- Emit the entry the code names, from the table post any append (44_data_codes.md R130). -/
def emitEntry (c : Code) (p : Nat) (s : State) : Host.Outcome State Fault Refusal :=
  match entry s c.toNat with
  | none => .fault .tableSlot
  | some e => .next (emitAndMark e c p s)

/-- `LIT` (44_data_codes.md R131): the sequence is the code's own value, one index. -/
def execLit (c : Code) (s : State) : Host.Outcome State Fault Refusal :=
  match learn (BitVec.setWidth 8 c) (codePreamble s) with
  | none => .fault .tableSlot
  | some t => .next (emitAndMark [BitVec.setWidth 8 c] c (bitPos s) t)

/-- `REF` (44_data_codes.md R132): the appended index is the first of the entry named. -/
def execRef (c : Code) (s : State) : Host.Outcome State Fault Refusal :=
  match firstOf (codePreamble s) c.toNat with
  | none => .fault .tableSlot
  | some k =>
    match learn k (codePreamble s) with
    | none => .fault .tableSlot
    | some t => emitEntry c (bitPos s) t

/-- `KWK` (44_data_codes.md R133): the appended index is the first of the previous entry, and the entry emitted is
the one just appended. -/
def execKwk (c : Code) (s : State) : Host.Outcome State Fault Refusal :=
  match firstOf (codePreamble s) s.prev.toNat with
  | none => .fault .tableSlot
  | some k =>
    match learn k (codePreamble s) with
    | none => .fault .tableSlot
    | some t => emitEntry c (bitPos s) t

/-- `BAD` (44_data_codes.md R134): the fault `BadCode`; nothing is appended or emitted, and the fault does not
depend on which invalid value the code has. -/
def execBad (_c : Code) (s : State) : Host.Outcome State Fault Refusal :=
  .next (raiseFault .badCode (bitPos s) (codePreamble s))

/-- The index DATA appends (44_data_codes.md R130): the first of the sequence being resolved, which for
`c = TLEN` is the first of the previous entry. -/
def dataIndex (c : Code) (s : State) : Option Byte :=
  if c.toNat < tlen s then firstOf s c.toNat else firstOf s s.prev.toNat

/-- `DATA(c, p)` line by line as 44_data_codes.md R130 writes it, on the state after SKIP. -/
def dataProcedure (c : Code) (p : Nat) (s : State) : Host.Outcome State Fault Refusal :=
  if s.hasPrev = true then
    if tlen s < c.toNat then .next (raiseFault .badCode p s)
    else if tlen s < tableCap then
      match dataIndex c s, entry s s.prev.toNat with
      | some k, some e => emitEntry c p (grow (append (e ++ [k]) s))
      | _, _ => .fault .tableSlot
    else emitEntry c p s
  else if tlen s ≤ c.toNat then .next (raiseFault .badCode p s)
  else emitEntry c p s

end Sys2Proof.Machine
end

