-- ==== Sys2Proof/Machine/HostOps.lean ====
section
/-! DEFINITION. The meanings of the five host operations (40_host_commands.md R90 to R94). -/

namespace Sys2Proof.Machine

/-- START's parameter check (40_host_commands.md R92 step 2, 60_exceptions.md R152). -/
def badParams (s : State) : Bool :=
  decide (s.cfg.minCode.toNat < 1 ∨ 11 < s.cfg.minCode.toNat ∨ s.params.planeCap < canvas s ∨
    s.params.inCap < s.cfg.inLen.toNat)

/-- START's fault (40_host_commands.md R92 step 2): PLANE keeps whatever it held, and the host's claim on it ends
(R94). -/
def failStart (s : State) : State :=
  { s with status := { s.status with cause := .badParam, run := .fault }, planeValid := false }

/-- START's steps 3 and 4 (40_host_commands.md R92): zero the plane of the current canvas, build the decoder's
initial state, `STATE <- BUSY`. -/
def launch (s : State) : State :=
  rebuild { s with
    plane := Memory.zeroBelow (canvas s) s.plane, planeValid := true,
    status := { s.status with run := .busy } }

/-- `START` when not `BUSY` (40_host_commands.md R92). A launch whose frame would read never-written IN bytes
is refused (70_reset_and_hazards.md R173; log 4); `BadParam` comes first, since it reads none (log 20). -/
def startFrame (s : State) : Host.Outcome State Fault Refusal :=
  if badParams s = true then .next (failStart (clearResults s))
  else if Memory.covers s.input s.cfg.inLen.toNat = true then .next (launch (clearResults s))
  else .refused .unwrittenInput

/-- `START` (40_host_commands.md R92): ignored while `BUSY` (R91). -/
def execStart (s : State) : Host.Outcome State Fault Refusal :=
  if s.status.run = .busy then .next s else startFrame s

/-- `REGWR n, d` (40_host_commands.md R91): everything is ignored while `BUSY`. -/
def execRegwr (n : RegNum) (d : Word) (s : State) : Host.Outcome State Fault Refusal :=
  if s.status.run = .busy then .next s
  else if n = 0#4 then (if d.getLsbD 0 = true then startFrame s else .next s)
  else .next (regWrite n d s)

/-- `REGRD n` (40_host_commands.md R90): the value is given to the host; no side effect on the block. -/
def execRegrd (n : RegNum) (s : State) : Host.Outcome State Fault Refusal :=
  .next { s with seen := .reg n (regRead s n) :: s.seen }

/-- `INWR a, v` (40_host_commands.md R93). -/
def execInwr (a : Addr) (v : Byte) (s : State) : Host.Outcome State Fault Refusal :=
  if s.status.run = .busy then .refused .inWriteWhileBusy
  else if s.params.inCap ≤ a.toNat then .fault .inAddress
  else .next { s with input := Memory.write s.input a.toNat v }

/-- The byte `PLRD a` must return, none where it may return any value (40_host_commands.md R94). -/
def planeByte (a : Addr) (s : State) : Option Byte :=
  if (s.status.run = .done ∨ s.status.run = .fault) ∧ a.toNat < canvas s ∧ s.planeValid = true then
    Memory.read s.plane a.toNat
  else none

/-- `PLRD a` (40_host_commands.md R94): where the spec says "any value", a fresh free byte (log 22). -/
def execPlrd (a : Addr) (s : State) : Host.Outcome State Fault Refusal :=
  match planeByte a s with
  | some v => .next { s with seen := .plane a v :: s.seen }
  | none => .next { s with seen := .plane a (Config.freePlaneByte s.draws a.toNat) :: s.seen, draws := s.draws + 1 }

end Sys2Proof.Machine
end

