-- ==== Sys2Proof/Machine/Dispatch.lean ====
section
/-! DEFINITION. One arm per instruction: which meaning it has. -/

namespace Sys2Proof.Machine

/-- Run one instruction. A format C instruction is run on the state in which its code is fetched (log 14). -/
def exec (i : Instr) (s : State) : Host.Outcome State Fault Refusal :=
  match i with
  | .clr => Sys2Proof.Machine.execClr s
  | .eoi => Sys2Proof.Machine.execEoi s
  | .lit c => Sys2Proof.Machine.execLit c s
  | .ref c => Sys2Proof.Machine.execRef c s
  | .kwk c => Sys2Proof.Machine.execKwk c s
  | .bad c => Sys2Proof.Machine.execBad c s
  | .start => Sys2Proof.Machine.execStart s
  | .regwr n d => Sys2Proof.Machine.execRegwr n d s
  | .regrd n => Sys2Proof.Machine.execRegrd n s
  | .inwr a v => Sys2Proof.Machine.execInwr a v s
  | .plrd a => Sys2Proof.Machine.execPlrd a s

end Sys2Proof.Machine
end

