-- ==== Sys2Proof/Machine/Step.lean ====
section
/-! DEFINITION. One step of the machine: the next turn of the schedule (log 1), and the decoder's own step
(41_fetch.md R100). -/

namespace Sys2Proof.Machine

/-- `STEP` (41_fetch.md R100): while `BUSY`, end the frame decode if the input is exhausted (R101), else fetch a
code, classify it and run it; when not `BUSY` the decoder has no step and nothing changes. -/
def decoderTurn (s : State) : Host.Outcome State Fault Refusal :=
  if s.status.run = .busy then
    match fetch s with
    | .exhausted => .next (exhaustedInput s)
    | .unwritten => .refused .unwrittenInput
    | .code c => exec (decodeCode (codeCtx s) c) s
  else .next s

/-- Take one turn (00_scope.md R10, 70_reset_and_hazards.md R170). -/
def takeTurn : Turn → State → Host.Outcome State Fault Refusal
  | .decoder, s => decoderTurn s
  | .host a, s => exec (decodeAccess a) s
  | .reset, s => .next (hardwareReset s)

/-- One step: the head of the schedule is taken off and takes its turn; an empty schedule is the decoder's turn
(log 1). -/
def step (s : State) : Host.Outcome State Fault Refusal :=
  match s.turns with
  | [] => decoderTurn s
  | t :: ts => takeTurn t { s with turns := ts }

/-- The decoder about to fetch a 12-bit code whose bits are `w` (log 13): `BUSY`, at bit 0 of a two-byte IN, with
the context `tableWordCtx`, which is what `MAXIDX = 0` and two literals 0 leave. -/
def withCodeWord (s : State) (w : Nat) : State :=
  { s with
    cfg := { s.cfg with inLen := 2#32, minCode := 11#8, maxIdx := tableWordCtx.maxIdx }
    status := { Status.reset with run := .busy }
    codeSize := 12#4, hasPrev := tableWordCtx.hasPrev, prev := 0#12, bytePos := 0#32, bitOff := 0#3
    table := [[0#8], [], [], [0#8, 0#8]]
    input := [(0, BitVec.ofNat 8 w), (1, BitVec.ofNat 8 (w / 256))]
    turns := .decoder :: s.turns }

/-- Place a word of the opcode table so that the very next step runs it (log 13): a format C word as the code the
decoder fetches next, a format H word as the host's next access, a write of register 0. -/
def State.withFetchWord (s : State) (nbits w : Nat) : State :=
  if nbits ≤ 16 then withCodeWord s w
  else { s with turns := .host (.regWrite 0#4 (BitVec.ofNat 32 w)) :: s.turns }

end Sys2Proof.Machine
end

