-- ==== Sys2Proof/Safety.lean ====
section
/-! DEFINITION. What holds of every state a run can reach: the whole-machine facts of the spec's prose
(10_state.md R23, R24, R40, R43; 60_exceptions.md R150; 40_host_commands.md R94), and the canonical form of the
memories. -/

namespace Sys2Proof.Machine

/-- A memory is in its canonical form and holds addresses below its capacity only (20_memory.md R50). -/
def Memory.ok (m : Memory) (cap : Nat) : Prop := Memory.wf m ∧ ∀ c ∈ m, c.1 < cap

/-- What `STATE` says of the flags and the cause (10_state.md R23, R24; 60_exceptions.md R150, R151): in `DONE`
exactly one of `EOI` and `TRUNC` is 1, elsewhere neither; `CAUSE` is nonzero exactly in `FAULT`; the start bit is
0 unless a code faulted. -/
def Status.ok (u : Status) : Prop :=
  (u.run = .done → u.eoi = !u.trunc) ∧
  (u.run ≠ .done → u.eoi = false ∧ u.trunc = false) ∧
  (u.run = .fault ↔ u.cause ≠ .none) ∧
  (u.cause = .none ∨ u.cause = .badParam → u.fbyte = 0#32 ∧ u.fbit = 0#3)

/-- What the slots in use hold while `BUSY` (10_state.md R40, R43 (g), (h)). -/
structure TableInv (s : State) : Prop where
  /-- R43 (b). -/
  length_ok : s.cfg.maxIdx.toNat + 3 ≤ tlen s ∧ tlen s ≤ tableCap
  /-- R43 (h). -/
  literals : ∀ i, i ≤ s.cfg.maxIdx.toNat → entry s i = some [BitVec.ofNat 8 i]
  /-- R40: the two placeholder slots. -/
  sentinels : entry s (s.cfg.maxIdx.toNat + 1) = some [] ∧ entry s (s.cfg.maxIdx.toNat + 2) = some []
  /-- R40: every other slot holds at least two indices, and at most one more than an earlier slot can. -/
  grown : ∀ i e, s.cfg.maxIdx.toNat + 3 ≤ i → entry s i = some e →
    2 ≤ e.length ∧ e.length + s.cfg.maxIdx.toNat + 1 ≤ i
  /-- R43 (g). -/
  elements : ∀ e ∈ s.table, ∀ b ∈ e, b.toNat ≤ s.cfg.maxIdx.toNat

/-- What holds at every step boundary while `BUSY` (10_state.md R43), with what START checked and R173 asks. -/
structure BusyInv (s : State) : Prop where
  /-- 40_host_commands.md R92 step 2. -/
  minCode_ok : 1 ≤ s.cfg.minCode.toNat ∧ s.cfg.minCode.toNat ≤ 11
  /-- R43 (a). -/
  width_ok : s.cfg.minCode.toNat + 1 ≤ s.codeSize.toNat ∧ s.codeSize.toNat ≤ maxCodeBits
  table_ok : TableInv s
  /-- R43 (c). -/
  prev_ok : s.hasPrev = true → s.prev.toNat < tlen s ∧ s.prev.toNat ≠ s.cfg.maxIdx.toNat + 1 ∧
    s.prev.toNat ≠ s.cfg.maxIdx.toNat + 2
  /-- R43 (d). -/
  fresh_ok : s.hasPrev = false → tlen s = s.cfg.maxIdx.toNat + 3 ∧ s.codeSize.toNat = s.cfg.minCode.toNat + 1
  /-- R43 (e). -/
  cursor_ok : s.cursor.toNat ≤ canvas s
  /-- R43 (f). -/
  bitPos_ok : bitPos s ≤ 8 * s.cfg.inLen.toNat
  /-- 40_host_commands.md R92 step 2. -/
  canvas_fits : canvas s ≤ s.params.planeCap
  /-- 40_host_commands.md R92 step 2. -/
  input_fits : s.cfg.inLen.toNat ≤ s.params.inCap
  /-- 70_reset_and_hazards.md R173. -/
  input_written : ∀ a, a < s.cfg.inLen.toNat → (Memory.read s.input a).isSome = true
  /-- 40_host_commands.md R92 step 3. -/
  plane_zeroed : s.planeValid = true

/-- The invariant: it holds at reset and every step keeps it (Obligations). -/
structure Inv (s : State) : Prop where
  params_ok : s.params.wf
  input_ok : Memory.ok s.input s.params.inCap
  plane_ok : Memory.ok s.plane s.params.planeCap
  status_ok : Status.ok s.status
  /-- 43_control_codes.md R122, 60_exceptions.md R159: outside a frame decode the table is released. -/
  released : s.status.run ≠ .busy → s.table = [] ∧ s.hasPrev = false
  /-- 40_host_commands.md R94: where the host has a claim on the plane, every byte of it has a value. -/
  plane_written : s.planeValid = true → ∀ a, a < canvas s → (Memory.read s.plane a).isSome = true
  busy_ok : s.status.run = .busy → BusyInv s

/-- The decoder takes the next turn (log 1): the schedule is empty, or its head is a decoder turn. -/
def DecoderNext (s : State) : Prop := s.turns = [] ∨ ∃ ts, s.turns = .decoder :: ts

/-- The frame decode is over, in one of the ways of 60_exceptions.md R150. -/
def ended (s : State) : Bool := s.status.run == .done || s.status.run == .fault

/-- The instruction is one of the six classes of a code (30_encoding.md R74). -/
def isCode : Instr → Bool
  | .clr | .eoi | .lit _ | .ref _ | .kwk _ | .bad _ => true
  | .start | .regwr _ _ | .regrd _ | .inwr _ _ | .plrd _ => false

/-- Two states that the frame decode cannot tell apart: the same instance, configuration, status and working
state, the same IN bytes below `INLEN`, the same plane bytes of the frame (70_reset_and_hazards.md R171). -/
structure SameFrame (s t : State) : Prop where
  params_eq : s.params = t.params
  cfg_eq : s.cfg = t.cfg
  status_eq : s.status = t.status
  codeSize_eq : s.codeSize = t.codeSize
  hasPrev_eq : s.hasPrev = t.hasPrev
  prev_eq : s.prev = t.prev
  cursor_eq : s.cursor = t.cursor
  bytePos_eq : s.bytePos = t.bytePos
  bitOff_eq : s.bitOff = t.bitOff
  table_eq : s.table = t.table
  input_eq : ∀ a, a < s.cfg.inLen.toNat → Memory.read s.input a = Memory.read t.input a
  plane_eq : ∀ a, a < canvas s → Memory.read s.plane a = Memory.read t.plane a

end Sys2Proof.Machine
end

