-- ==== Sys2Proof/Certificates/Slice0/Obligations.lean ====
section
/-! DEFINITION. The statements for the provers. The words of a statement are spelled out here (registers and
fields by their arithmetic, tables and planes element by element) rather than by the shared operations of the
machine, except where a statement is about such an operation. -/

namespace Sys2Proof.Claims

open Sys2Proof.Machine

/-- The indices of `e` stand at `at`, `at+1`, …, and every other address of the plane is as it was. -/
def PlaneAfter (old new : Memory) (start : Nat) (e : List Byte) : Prop :=
  ∀ a, Memory.read new a =
    if start ≤ a ∧ a < start + e.length then e[a - start]? else Memory.read old a

/-- START's refusal to start (40_host_commands.md R92 step 2, 60_exceptions.md R152). -/
def BadStart (s : State) : Prop :=
  s.cfg.minCode.toNat < 1 ∨ 11 < s.cfg.minCode.toNat ∨
  s.params.planeCap < s.cfg.cw.toNat * s.cfg.ch.toNat ∨ s.params.inCap < s.cfg.inLen.toNat

/-- Every IN byte below `INLEN` was written since reset (70_reset_and_hazards.md R173). -/
def InputWritten (s : State) : Prop := ∀ a, a < s.cfg.inLen.toNat → (Memory.read s.input a).isSome = true

/-- The initial table (10_state.md R40). -/
def InitialTable (maxIdx : Byte) (tbl : List (List Byte)) : Prop :=
  tbl.length = maxIdx.toNat + 3 ∧ (∀ i, i ≤ maxIdx.toNat → tbl[i]? = some [BitVec.ofNat 8 i]) ∧
  tbl[maxIdx.toNat + 1]? = some [] ∧ tbl[maxIdx.toNat + 2]? = some []

/-- Does a data code append: there is a previous code and the table is not full (44_data_codes.md R130, R137). -/
def Appends (s : State) : Prop := s.hasPrev = true ∧ s.table.length < 4096

/-- The table after a data code that appends `e ++ [k]` (44_data_codes.md R130, R135). -/
def TableAfter (s : State) (e : List Byte) (k : Byte) (tbl : List (List Byte)) : Prop :=
  (Appends s → tbl = s.table ++ [e ++ [k]]) ∧ (¬Appends s → tbl = s.table)

/-- The code width after a data code (44_data_codes.md R136): one more exactly when it appends, the length has
just reached `2^CODE_SIZE - GROW_BIAS`, and the width is below 12. -/
def WidthAfter (s : State) (w : BitVec 4) : Prop :=
  let grows := Appends s ∧ s.table.length + 1 = 2 ^ s.codeSize.toNat - s.params.growBias.val ∧ s.codeSize.toNat < 12
  (grows → w.toNat = s.codeSize.toNat + 1) ∧ (¬grows → w = s.codeSize)

/-- The state `u` with the fault entry of 60_exceptions.md R159 for cause `f` at start bit `p`. -/
def faulted (f : Cause) (p : Nat) (u : State) : State :=
  { u with
    table := [], hasPrev := false
    status := { u.status with
      run := .fault, cause := f, fbyte := BitVec.ofNat 32 (p / 8), fbit := BitVec.ofNat 3 (p % 8) } }

/-- Does the host's next access issue START (30_encoding.md R76). -/
def IssuesStart (t : Turn) : Prop := ∃ d : Word, t = .host (.regWrite 0#4 d) ∧ d.getLsbD 0 = true

/-- The closed form of the width (30_encoding.md R73). -/
def WidthLaw (s : State) : Prop :=
  (s.cfg.maxIdx.toNat + 3 < 2 ^ (s.cfg.minCode.toNat + 1) - s.params.growBias.val →
    s.codeSize.toNat = min 12 (max (s.cfg.minCode.toNat + 1) (Nat.size (s.table.length + s.params.growBias.val)))) ∧
  (2 ^ (s.cfg.minCode.toNat + 1) - s.params.growBias.val ≤ s.cfg.maxIdx.toNat + 3 →
    s.codeSize.toNat = s.cfg.minCode.toNat + 1)

/-- The condition of each row of the table of 30_encoding.md R74, rows 1 to 6 as 0 to 5. -/
def rowCondition (x : CodeCtx) (c : Nat) : Fin 6 → Prop
  | 0 => c = x.maxIdx.toNat + 1
  | 1 => c = x.maxIdx.toNat + 2
  | 2 => c ≤ x.maxIdx.toNat
  | 3 => x.maxIdx.toNat + 3 ≤ c ∧ c < x.tlen
  | 4 => c = x.tlen ∧ x.hasPrev = true ∧ x.tlen < 4096
  | 5 => x.tlen < c ∨ (c = x.tlen ∧ x.hasPrev = false)

/-- The instruction of each row of that table. -/
def rowInstr (c : Code) : Fin 6 → Instr
  | 0 => .clr
  | 1 => .eoi
  | 2 => .lit c
  | 3 => .ref c
  | 4 => .kwk c
  | 5 => .bad c

end Sys2Proof.Claims

open Sys2Proof Sys2Proof.Machine Sys2Proof.Claims

/-! ### Reset -/

/-- 10_state.md R44: every register and field is 0 after reset (registers 14 and 15 and every reserved bit among
them), no table slot is in use, no memory byte has a value, the decoder does nothing, and a host read of the plane
returns any value. The last clause, that this value is the free byte `Config.freePlaneByte` of the draw's number and the
address and that the read advances `draws`, is the model's choice (log 22), for whatever byte is drawn. -/
def Obligations.ResetStateIsAsSpecified : Prop :=
  State.reset.status = { run := .idle, eoi := false, trunc := false, cause := .none, fbyte := 0#32, fbit := 0#3 } ∧
  State.reset.cfg = { inLen := 0#32, minCode := 0#8, maxIdx := 0#8, cw := 0#16, ch := 0#16, left := 0#16, top := 0#16, iw := 0#16, ih := 0#16, disposal := 0#3, tflag := false, tidx := 0#8, bgidx := 0#8 } ∧
  State.reset.bytePos = 0#32 ∧ State.reset.bitOff = 0#3 ∧ State.reset.cursor = 0#32 ∧ State.reset.codeSize = 0#4 ∧
  State.reset.hasPrev = false ∧ State.reset.prev = 0#12 ∧ State.reset.table = [] ∧
  (∀ n, regRead State.reset n = 0#32) ∧
  (∀ a, Memory.read State.reset.input a = none) ∧ (∀ a, Memory.read State.reset.plane a = none) ∧
  decoderTurn State.reset = .next State.reset ∧
  (∀ a : Addr, exec (.plrd a) State.reset =
    .next { State.reset with
      seen := .plane a (Config.freePlaneByte State.reset.draws a.toNat) :: State.reset.seen
      draws := State.reset.draws + 1 })

/-- 70_reset_and_hazards.md R170, as a turn of the schedule (the model's form, log 12): in any state, `BUSY` or not,
hardware reset puts every register and field to 0 and leaves both memories without values. -/
def Obligations.HardwareResetFromAnyState : Prop :=
  ∀ (s : State) (ts : List Turn), s.turns = .reset :: ts →
    ∃ t, step s = .next t ∧ (∀ n, regRead t n = 0#32) ∧ t.status.run = .idle ∧ t.table = [] ∧
      (∀ a, Memory.read t.input a = none) ∧ (∀ a, Memory.read t.plane a = none) ∧ t.planeValid = false ∧
      t.params = s.params ∧ t.turns = ts ∧ t.seen = s.seen ∧ t.draws = s.draws

/-! ### The host operations -/

/-- 40_host_commands.md R90: `REGRD n` returns the 32-bit value of register `n`, field by field as 10_state.md R22
to R36 lay it out, in every state, and changes nothing else. -/
def Obligations.RegrdReturnsTheRegisterLayout : Prop :=
  ∀ (n : RegNum) (s : State), ∃ v : Word, exec (.regrd n) s = .next { s with seen := .reg n v :: s.seen } ∧
    (n.toNat = 0 ∨ n.toNat = 14 ∨ n.toNat = 15 → v = 0#32) ∧
    (n.toNat = 1 → v.toNat =
      (match s.status.run with | .idle => 0 | .busy => 1 | .done => 2 | .fault => 3) +
        4 * s.status.eoi.toNat + 8 * s.status.trunc.toNat) ∧
    (n.toNat = 2 → v.toNat =
      (match s.status.cause with | .none => 0 | .badParam => 1 | .badCode => 2 | .decodeOverrun => 3) +
        256 * s.status.fbit.toNat) ∧
    (n.toNat = 3 → v = s.status.fbyte) ∧
    (n.toNat = 4 → v = s.cfg.inLen) ∧
    (n.toNat = 5 → v.toNat = s.cfg.minCode.toNat + 256 * s.cfg.maxIdx.toNat) ∧
    (n.toNat = 6 → v.toNat = s.cfg.cw.toNat + 65536 * s.cfg.ch.toNat) ∧
    (n.toNat = 7 → v.toNat = s.cfg.left.toNat + 65536 * s.cfg.top.toNat) ∧
    (n.toNat = 8 → v.toNat = s.cfg.iw.toNat + 65536 * s.cfg.ih.toNat) ∧
    (n.toNat = 9 → v.toNat = s.cfg.disposal.toNat + 8 * s.cfg.tflag.toNat + 256 * s.cfg.tidx.toNat +
      65536 * s.cfg.bgidx.toNat) ∧
    (n.toNat = 10 → v = s.bytePos) ∧
    (n.toNat = 11 → v = s.cursor) ∧
    (n.toNat = 12 → v.toNat = s.codeSize.toNat + 16 * s.hasPrev.toNat + 32 * s.bitOff.toNat + 256 * s.prev.toNat) ∧
    (n.toNat = 13 → s.table.length ≤ 4096 → v.toNat = s.table.length)

/-- 40_host_commands.md R91: `REGWR n, d` is ignored while `BUSY`; else register 0 with bit 0 set is START, the RW
registers 4 to 9 store their named fields and drop the reserved bits, and every other write does nothing. (What a write of
`CANVAS` does to the host's claim on the old plane is PlaneClaimFollowsStartAndCanvas.) -/
def Obligations.RegwrStoresNamedFields : Prop :=
  ∀ (n : RegNum) (d : Word) (s : State),
    (s.status.run = .busy → exec (.regwr n d) s = .next s) ∧
    (s.status.run ≠ .busy →
      (n.toNat = 0 → d.toNat % 2 = 1 → exec (.regwr n d) s = exec .start s) ∧
      (n.toNat = 0 → d.toNat % 2 = 0 → exec (.regwr n d) s = .next s) ∧
      (n.toNat = 4 → exec (.regwr n d) s = .next { s with cfg := { s.cfg with inLen := d } }) ∧
      (n.toNat = 5 → exec (.regwr n d) s = .next { s with cfg := { s.cfg with
        minCode := BitVec.ofNat 8 d.toNat, maxIdx := BitVec.ofNat 8 (d.toNat / 256) } }) ∧
      (n.toNat = 6 → ∃ valid, exec (.regwr n d) s = .next { s with
        cfg := { s.cfg with cw := BitVec.ofNat 16 d.toNat, ch := BitVec.ofNat 16 (d.toNat / 65536) }
        planeValid := valid }) ∧
      (n.toNat = 7 → exec (.regwr n d) s = .next { s with cfg := { s.cfg with
        left := BitVec.ofNat 16 d.toNat, top := BitVec.ofNat 16 (d.toNat / 65536) } }) ∧
      (n.toNat = 8 → exec (.regwr n d) s = .next { s with cfg := { s.cfg with
        iw := BitVec.ofNat 16 d.toNat, ih := BitVec.ofNat 16 (d.toNat / 65536) } }) ∧
      (n.toNat = 9 → exec (.regwr n d) s = .next { s with cfg := { s.cfg with
        disposal := BitVec.ofNat 3 d.toNat, tflag := decide (d.toNat / 8 % 2 = 1)
        tidx := BitVec.ofNat 8 (d.toNat / 256), bgidx := BitVec.ofNat 8 (d.toNat / 65536) } }) ∧
      (n.toNat ∈ [1, 2, 3, 10, 11, 12, 13, 14, 15] → exec (.regwr n d) s = .next s))

/-- 40_host_commands.md R92: START is ignored while `BUSY`; else it clears the previous result and the working
registers and either faults with `BadParam`, PLANE keeping what it held, or zeroes the plane of the canvas, builds the
initial table and goes `BUSY`. (The launch is stated for written IN bytes below `INLEN`, R173; the host's claim on the
plane is PlaneClaimFollowsStartAndCanvas.) -/
def Obligations.StartBeginsOrFaults : Prop :=
  ∀ s : State,
    (s.status.run = .busy → exec .start s = .next s) ∧
    (s.status.run ≠ .busy → BadStart s → ∃ valid, exec .start s = .next { s with
      status := { run := .fault, eoi := false, trunc := false, cause := .badParam, fbyte := 0#32, fbit := 0#3 }
      bytePos := 0#32, bitOff := 0#3, cursor := 0#32, codeSize := 0#4, hasPrev := false, prev := 0#12, table := []
      planeValid := valid }) ∧
    (s.status.run ≠ .busy → ¬BadStart s → InputWritten s → ∃ tbl pl valid, exec .start s = .next { s with
      status := { run := .busy, eoi := false, trunc := false, cause := .none, fbyte := 0#32, fbit := 0#3 }
      bytePos := 0#32, bitOff := 0#3, cursor := 0#32, codeSize := BitVec.ofNat 4 (s.cfg.minCode.toNat + 1)
      hasPrev := false, prev := 0#12, table := tbl, plane := pl, planeValid := valid } ∧
      InitialTable s.cfg.maxIdx tbl ∧
      ∀ a, Memory.read pl a = if a < s.cfg.cw.toNat * s.cfg.ch.toNat then some 0#8 else Memory.read s.plane a)

/-- 70_reset_and_hazards.md R173: a fetch never meets an unwritten IN byte when every byte below `INLEN` was written;
and a launch that breaks this is refused. -/
def Obligations.UnwrittenInputIsNeverRead : Prop :=
  (∀ s : State, InputWritten s → fetch s ≠ .unwritten) ∧
  (∀ s : State, s.status.run ≠ .busy → ¬BadStart s → ¬InputWritten s → exec .start s = .refused .unwrittenInput)

/-- 40_host_commands.md R93: `INWR a, v` stores `v` at IN address `a` when not `BUSY`, and changes nothing else. -/
def Obligations.InwrStoresOneByte : Prop :=
  ∀ (a : Addr) (v : Byte) (s : State), s.status.run ≠ .busy → a.toNat < s.params.inCap →
    ∃ m, exec (.inwr a v) s = .next { s with input := m } ∧
      ∀ x, Memory.read m x = if x = a.toNat then some v else Memory.read s.input x

/-- Where `INWR` stops (logs 7 and 8): while `BUSY` the host has no such move (20_memory.md R62), and an address at or
above `IN_CAP` does not exist (R50). -/
def Obligations.InwrStopsOutsideItsRange : Prop :=
  ∀ (a : Addr) (v : Byte) (s : State),
    (s.status.run = .busy → exec (.inwr a v) s = .refused .inWriteWhileBusy) ∧
    (s.status.run ≠ .busy → s.params.inCap ≤ a.toNat → exec (.inwr a v) s = .fault .inAddress)

/-- 40_host_commands.md R94: `PLRD a` returns `PLANE[a]` in `DONE` and `FAULT` below `CW*CH` where a frame decode has
zeroed the plane for the current canvas, and any value otherwise; nothing but the outside's record changes. Two things
are the model's choice: the field `planeValid` stands for R94's condition on the canvas (log 6), and "any value" is the
free byte `Config.freePlaneByte` of the draw's number and the address, whatever it is, with `draws` advanced (log 22). -/
def Obligations.PlrdReturnsThePlaneOrAnyValue : Prop :=
  ∀ (a : Addr) (s : State),
    let defined := (s.status.run = .done ∨ s.status.run = .fault) ∧ a.toNat < s.cfg.cw.toNat * s.cfg.ch.toNat ∧
      s.planeValid = true
    (∀ v, defined → Memory.read s.plane a.toNat = some v →
      exec (.plrd a) s = .next { s with seen := .plane a v :: s.seen }) ∧
    (¬defined → exec (.plrd a) s = .next { s with
      seen := .plane a (Config.freePlaneByte s.draws a.toNat) :: s.seen, draws := s.draws + 1 })

/-- When the host has a claim on the plane (40_host_commands.md R94; the field `planeValid`, log 6): a START that
launches gives it, a START that ends in `BadParam` and a `CANVAS` write that is taken end it, and no other instruction
touches it. -/
def Obligations.PlaneClaimFollowsStartAndCanvas : Prop :=
  ∀ (i : Instr) (s t : State), Instr.wf s.params (codeCtx s) i = true → exec i s = .next t →
    (i = .start → s.status.run ≠ .busy → (t.planeValid = true ↔ ¬BadStart s)) ∧
    (∀ d, i = .regwr 6#4 d → s.status.run ≠ .busy → t.planeValid = false) ∧
    ((i ≠ .start ∧ ∀ d, i ≠ .regwr 6#4 d) ∨ s.status.run = .busy → t.planeValid = s.planeValid)

/-- 30_encoding.md R76: a write of register 0 with bit 0 set is START whatever the other bits; every other register
write is REGWR, every register read REGRD; and a host turn of the schedule (log 1)
runs the operation it encodes. -/
def Obligations.HostTurnRunsTheAccess : Prop :=
  (∀ d : Word, d.toNat % 2 = 1 → decodeAccess (.regWrite 0#4 d) = .start) ∧
  (∀ (n : RegNum) (d : Word), ¬(n.toNat = 0 ∧ d.toNat % 2 = 1) → decodeAccess (.regWrite n d) = .regwr n d) ∧
  (∀ n : RegNum, decodeAccess (.regRead n) = .regrd n) ∧
  (∀ (a : Addr) (v : Byte), decodeAccess (.inWrite a v) = .inwr a v) ∧
  (∀ a : Addr, decodeAccess (.planeRead a) = .plrd a) ∧
  (∀ (s : State) (a : Access) (ts : List Turn), s.turns = .host a :: ts →
    step s = exec (decodeAccess a) { s with turns := ts })

/-! ### Fetch, decode, encode -/

/-- 30_encoding.md R71 and 41_fetch.md R102: while at least `CODE_SIZE` bits are left, the fetched code is the sum of
the stream bits from `BITPOS` on, each bit `(p+j) mod 8` of the IN byte `(p+j) div 8`, below `2^CODE_SIZE`; and
`BITPOS` moves past it. In every state the fetch writes `BYTEPOS` and `BITOFF`, the quotient and the remainder of the
new position by 8, and changes nothing else: no status, no other working register, no memory byte. -/
def Obligations.FetchAssemblesTheCode : Prop :=
  (∀ s : State, advance s = { s with
    bytePos := BitVec.ofNat 32 ((bitPos s + s.codeSize.toNat) / 8)
    bitOff := BitVec.ofNat 3 ((bitPos s + s.codeSize.toNat) % 8) }) ∧
  (∀ s : State, InputWritten s → s.codeSize.toNat ≤ 12 →
    bitPos s + s.codeSize.toNat ≤ 8 * s.cfg.inLen.toNat →
    bitPos (advance s) = bitPos s + s.codeSize.toNat ∧
    ∃ c : Code, fetch s = .code c ∧ c.toNat < 2 ^ s.codeSize.toNat ∧
      ∀ j, j < s.codeSize.toNat → ∃ b, Memory.read s.input ((bitPos s + j) / 8) = some b ∧
        c.getLsbD j = b.getLsbD ((bitPos s + j) % 8))

/-- 41_fetch.md R102: a fetch reads the IN bytes `p div 8` to `(p+w-1) div 8` and no other. -/
def Obligations.FetchReadsOnlyItsBytes : Prop :=
  ∀ (s : State) (m : Memory),
    (∀ a, bitPos s / 8 ≤ a → a ≤ (bitPos s + s.codeSize.toNat - 1) / 8 →
      Memory.read m a = Memory.read s.input a) →
    fetch { s with input := m } = fetch s

/-- 30_encoding.md R74: the six classes are pairwise disjoint and cover every code value of every context with at least
the initial table, and the decoder gives the class of the row. -/
def Obligations.ClassesAreDisjointAndCover : Prop :=
  ∀ (x : CodeCtx) (c : Code), x.maxIdx.toNat + 3 ≤ x.tlen →
    ∃ r : Fin 6, rowCondition x c.toNat r ∧ (∀ r', rowCondition x c.toNat r' → r' = r) ∧
      decodeCode x c = rowInstr c r

/-- Words written out from the spec's encodings: `CLR`, `EOI` and `KWK` of 95_test_vectors.md V6, the literal 2 of V4
(a literal whatever `TLEN` is), `REF` of V9, `BAD` of V10, and the write of 40_host_commands.md R91's example. That the
32-bit table word 1 is `START` is the model's choice (log 13): a table word of 17 to 32 bits is read as a write of
register 0. -/
def Obligations.WrittenOutWordsDecode : Prop :=
  decodeCode { maxIdx := 3#8, hasPrev := false, tlen := 6 } 0b000000000100#12 = .clr ∧
  decodeCode { maxIdx := 3#8, hasPrev := true, tlen := 8 } 0b000000000101#12 = .eoi ∧
  decodeCode { maxIdx := 3#8, hasPrev := true, tlen := 8 } 0b000000000010#12 = .lit 2#12 ∧
  decodeCode { maxIdx := 3#8, hasPrev := true, tlen := 7 } 0b000000000110#12 = .ref 6#12 ∧
  decodeCode { maxIdx := 3#8, hasPrev := true, tlen := 6 } 0b000000000110#12 = .kwk 6#12 ∧
  decodeCode { maxIdx := 3#8, hasPrev := false, tlen := 6 } 0b000000000110#12 = .bad 6#12 ∧
  decodeTableWord 32 0b1 = some .start ∧
  decodeAccess (.regWrite 5#4 0x00000302#32) = .regwr 5#4 0x00000302#32

/-- For every instruction: decoding an encoded well-formed instruction gives it back, with every operand (30_encoding.md
R74, R76); a code value decodes to a well-formed instruction that encodes to it. -/
def Obligations.DecodeOfEncodeIsTheInstruction : Prop :=
  (∀ (p : Params) (x : CodeCtx) (i : Instr), Instr.wf p x i = true → decode x (encode x i) = i) ∧
  (∀ (p : Params) (x : CodeCtx) (c : Code), Instr.wf p x (decodeCode x c) = true ∧ encode x (decodeCode x c) = .code c)

/-- 30_encoding.md R81 and R71: in the bytes assembled from a listing, the code that starts after the widths before it
is read back with its own width; and the bits after the last code are 0. -/
def Obligations.AssembledListingsAreReadBack : Prop :=
  ∀ codes : List (Nat × Nat), (∀ c ∈ codes, c.1 < 2 ^ c.2) →
    (∀ before after c w, codes = before ++ (c, w) :: after →
      extractCode (fun a => (assemble codes)[a]?) (before.map Prod.snd).sum w = some c) ∧
    (assemble codes).length = ((codes.map Prod.snd).sum + 7) / 8 ∧
    (∀ q, (codes.map Prod.snd).sum ≤ q → q < 8 * (assemble codes).length →
      streamBit (fun a => (assemble codes)[a]?) q = some false)

/-! ### One step -/

/-- 41_fetch.md R100: when the decoder takes the next turn of the schedule (log 1), the step is its STEP on the state
with the turn taken off; while `BUSY`, when the fetch finds a code, it is the instruction of the code's class run on
that state. -/
def Obligations.StepRunsTheDecodedCode : Prop :=
  (∀ s : State, DecoderNext s → step s = decoderTurn { s with turns := s.turns.tail }) ∧
  (∀ (s : State) (c : Code), s.status.run = .busy → DecoderNext s → fetch s = .code c →
    step s = exec (decodeCode { maxIdx := s.cfg.maxIdx, hasPrev := s.hasPrev, tlen := s.table.length } c)
      { s with turns := s.turns.tail })

/-- 41_fetch.md R101: when fewer than `CODE_SIZE` bits remain, no code is fetched, `BITPOS` and the cursor do not move,
and the frame decode ends with `TRUNC`. -/
def Obligations.ExhaustedInputEndsWithTrunc : Prop :=
  ∀ s : State, s.status.run = .busy → 8 * s.cfg.inLen.toNat < bitPos s + s.codeSize.toNat →
    decoderTurn s = .next { s with
      table := [], hasPrev := false, status := { s.status with trunc := true, run := .done } }

/-- 41_fetch.md R100 (c): when not `BUSY` the decoder has no step and nothing changes by itself; its turn of
the schedule (log 1) is taken off. -/
def Obligations.DecoderRestsWhenNotBusy : Prop :=
  ∀ s : State, s.status.run ≠ .busy → DecoderNext s → step s = .next { s with turns := s.turns.tail }

/-! ### The cursor -/

/-- 42_cursor_skip.md R110, with its corner cases: inside is the intersection of the rectangle and the canvas, the sums
do not wrap, and an empty rectangle or one wholly outside the canvas has no inside position; column `x`, row `y` is
position `y*CW + x` (20_memory.md R53). -/
def Obligations.InsideIsTheRectangle : Prop :=
  ∀ (f : FrameConfig) (a : Nat),
    (inside f a = true ↔
      f.left.toNat ≤ a % f.cw.toNat ∧ a % f.cw.toNat < f.left.toNat + f.iw.toNat ∧
      f.top.toNat ≤ a / f.cw.toNat ∧ a / f.cw.toNat < f.top.toNat + f.ih.toNat) ∧
    (f.iw = 0#16 ∨ f.ih = 0#16 → inside f a = false) ∧
    (a < f.cw.toNat * f.ch.toNat → f.cw.toNat ≤ f.left.toNat ∨ f.ch.toNat ≤ f.top.toNat → inside f a = false) ∧
    (∀ x y, x < f.cw.toNat → (inside f (y * f.cw.toNat + x) = true ↔
      f.left.toNat ≤ x ∧ x < f.left.toNat + f.iw.toNat ∧ f.top.toNat ≤ y ∧ y < f.top.toNat + f.ih.toNat))

/-- 42_cursor_skip.md R111 and R112: SKIP moves the cursor to the first position at or after it that is inside the
rectangle, or to `CW*CH`; it writes `TIDX` on the positions passed exactly under `DISPOSAL = 1`, leaves every other
plane byte, and changes nothing else. -/
def Obligations.SkipPassesAndPaintsOutside : Prop :=
  ∀ s : State, s.cursor.toNat ≤ s.cfg.cw.toNat * s.cfg.ch.toNat →
    ∃ (k : Nat) (pl : Memory), skip s = { s with cursor := BitVec.ofNat 32 k, plane := pl } ∧
      s.cursor.toNat ≤ k ∧ k ≤ s.cfg.cw.toNat * s.cfg.ch.toNat ∧
      (∀ a, s.cursor.toNat ≤ a → a < k → inside s.cfg a = false) ∧
      (k = s.cfg.cw.toNat * s.cfg.ch.toNat ∨ inside s.cfg k = true) ∧
      ∀ a, Memory.read pl a = if s.cfg.disposal.toNat = 1 ∧ s.cursor.toNat ≤ a ∧ a < k then some s.cfg.tidx
        else Memory.read s.plane a

/-- 42_cursor_skip.md R113: on an empty canvas SKIP does nothing, the first literal faults with `DecodeOverrun`, and
`CLR` and `EOI` go on without moving the cursor. -/
def Obligations.EmptyCanvasHasNoPosition : Prop :=
  ∀ s : State, s.cfg.cw = 0#16 ∨ s.cfg.ch = 0#16 →
    skip s = s ∧
    (∀ c : Code, c.toNat ≤ s.cfg.maxIdx.toNat → s.hasPrev = false →
      exec (.lit c) s = .next (faulted .decodeOverrun (bitPos s) (advance s))) ∧
    (∃ t, exec .clr s = .next t ∧ t.cursor = s.cursor ∧ t.plane = s.plane ∧ t.status = s.status) ∧
    (∃ t, exec .eoi s = .next t ∧ t.cursor = s.cursor ∧ t.plane = s.plane ∧ t.status.run = .done)

/-- 44_data_codes.md R138 and R139: the indices that fit below `CW*CH` are written at consecutive positions, and no
other plane byte changes; if all fit the code is marked, else the fault `DecodeOverrun` is raised and it is not. -/
def Obligations.EmitWritesThenMarksOrOverruns : Prop :=
  ∀ (e : List Byte) (c : Code) (p : Nat) (s : State), s.cursor.toNat ≤ s.cfg.cw.toNat * s.cfg.ch.toNat →
    ∃ pl : Memory,
      PlaneAfter s.plane pl s.cursor.toNat (e.take (s.cfg.cw.toNat * s.cfg.ch.toNat - s.cursor.toNat)) ∧
      (s.cursor.toNat + e.length ≤ s.cfg.cw.toNat * s.cfg.ch.toNat →
        emitAndMark e c p s = { s with
          plane := pl, cursor := BitVec.ofNat 32 (s.cursor.toNat + e.length), hasPrev := true, prev := c }) ∧
      (s.cfg.cw.toNat * s.cfg.ch.toNat < s.cursor.toNat + e.length →
        emitAndMark e c p s = faulted .decodeOverrun p { s with
          plane := pl, cursor := BitVec.ofNat 32 (s.cfg.cw.toNat * s.cfg.ch.toNat) })

/-! ### The codes -/

/-- 43_control_codes.md R120: after fetch and skip, `CLR` rebuilds the initial table, resets the width to
`MINCODE + 1` and clears `HAS_PREV`; it changes nothing else, `PREV` included. -/
def Obligations.ClrRebuildsTheInitialTable : Prop :=
  ∀ s : State, ∃ tbl, exec .clr s = .next { codePreamble s with
      table := tbl, codeSize := BitVec.ofNat 4 (s.cfg.minCode.toNat + 1), hasPrev := false } ∧
    InitialTable s.cfg.maxIdx tbl ∧ (codePreamble s).prev = s.prev

/-- 43_control_codes.md R120 (e): in every state a run reaches, all `CLR` need do to the table is to cut it to its first
`MAXIDX + 3` slots. -/
def Obligations.ClrOnlyShortensTheTable : Prop :=
  ∀ s : State, Inv s → s.status.run = .busy →
    exec .clr s = .next { codePreamble s with
      table := s.table.take (s.cfg.maxIdx.toNat + 3), codeSize := BitVec.ofNat 4 (s.cfg.minCode.toNat + 1)
      hasPrev := false }

/-- 43_control_codes.md R121: after fetch and skip, `EOI` ends the frame decode with the flag `EOI`; the plane need not
be complete, and everything but the released table keeps its value. -/
def Obligations.EoiEndsTheFrameDecode : Prop :=
  ∀ s : State, exec .eoi s = .next { codePreamble s with
    table := [], hasPrev := false, status := { s.status with eoi := true, run := .done } }

/-- 43_control_codes.md R122: both ends set their flag, release the table and go `DONE`, keep every other register and
the plane, and the decoder has no further step. -/
def Obligations.EndReleasesTheTable : Prop :=
  ∀ s : State,
    endFrame .eoi s = { s with table := [], hasPrev := false, status := { s.status with eoi := true, run := .done } } ∧
    endFrame .trunc s = { s with table := [], hasPrev := false, status := { s.status with trunc := true, run := .done } } ∧
    ∀ k, decoderTurn (endFrame k s) = .next (endFrame k s)

/-- 44_data_codes.md R131: a literal appends `TABLE[PREV] ++ [c]` when there is a previous code and the table is not
full, may widen the codes, emits the single index `c` and becomes `PREV`; with no canvas position left it faults with
`DecodeOverrun` instead, and never with `BadCode`. -/
def Obligations.LitEmitsItsIndex : Prop :=
  ∀ (c : Code) (s : State) (e : List Byte), c.toNat ≤ s.cfg.maxIdx.toNat →
    (s.hasPrev = true → s.table[s.prev.toNat]? = some e) →
    ∃ (tbl : List (List Byte)) (w : BitVec 4),
      TableAfter s e (BitVec.ofNat 8 c.toNat) tbl ∧ WidthAfter s w ∧
      ((codePreamble s).cursor.toNat < s.cfg.cw.toNat * s.cfg.ch.toNat → ∃ pl,
        exec (.lit c) s = .next { codePreamble s with
          table := tbl, codeSize := w, plane := pl, cursor := (codePreamble s).cursor + 1#32
          hasPrev := true, prev := c } ∧
        PlaneAfter (codePreamble s).plane pl (codePreamble s).cursor.toNat [BitVec.ofNat 8 c.toNat]) ∧
      (s.cfg.cw.toNat * s.cfg.ch.toNat ≤ (codePreamble s).cursor.toNat →
        exec (.lit c) s = .next (faulted .decodeOverrun (bitPos s) { codePreamble s with codeSize := w }))

/-- 44_data_codes.md R132: a reference appends `TABLE[PREV] ++ [first(TABLE[c])]` when the table is not full, emits
`TABLE[c]` and becomes `PREV`; when it does not fit, the indices that do are written and it faults with
`DecodeOverrun`. In a state a run reaches there is a previous code, and the entry has at least two indices. -/
def Obligations.RefEmitsItsEntry : Prop :=
  ∀ (c : Code) (s : State) (e seq : List Byte) (k : Byte), s.cfg.maxIdx.toNat + 3 ≤ c.toNat →
    s.table[c.toNat]? = some seq → seq.head? = some k → (s.hasPrev = true → s.table[s.prev.toNat]? = some e) →
    (codePreamble s).cursor.toNat ≤ s.cfg.cw.toNat * s.cfg.ch.toNat →
    (Inv s → s.status.run = .busy → s.hasPrev = true ∧ 2 ≤ seq.length) ∧
    ∃ (tbl : List (List Byte)) (w : BitVec 4) (pl : Memory),
      TableAfter s e k tbl ∧ WidthAfter s w ∧
      PlaneAfter (codePreamble s).plane pl (codePreamble s).cursor.toNat
        (seq.take (s.cfg.cw.toNat * s.cfg.ch.toNat - (codePreamble s).cursor.toNat)) ∧
      ((codePreamble s).cursor.toNat + seq.length ≤ s.cfg.cw.toNat * s.cfg.ch.toNat →
        exec (.ref c) s = .next { codePreamble s with
          table := tbl, codeSize := w, plane := pl
          cursor := BitVec.ofNat 32 ((codePreamble s).cursor.toNat + seq.length), hasPrev := true, prev := c }) ∧
      (s.cfg.cw.toNat * s.cfg.ch.toNat < (codePreamble s).cursor.toNat + seq.length →
        exec (.ref c) s = .next (faulted .decodeOverrun (bitPos s) { codePreamble s with
          codeSize := w, plane := pl, cursor := BitVec.ofNat 32 (s.cfg.cw.toNat * s.cfg.ch.toNat) }))

/-- 44_data_codes.md R133: the code of the entry about to be assigned appends `TABLE[PREV] ++ [first(TABLE[PREV])]` in
slot `c`, emits that entry, one longer than the previous one and with the same index at both ends, and becomes `PREV`;
when it does not fit, the indices that do are written and it faults with `DecodeOverrun`. -/
def Obligations.KwkEmitsTheEntryItAppends : Prop :=
  ∀ (c : Code) (s : State) (e : List Byte) (k : Byte), c.toNat = s.table.length → s.hasPrev = true →
    s.table.length < 4096 → s.table[s.prev.toNat]? = some e → e.head? = some k →
    (codePreamble s).cursor.toNat ≤ s.cfg.cw.toNat * s.cfg.ch.toNat →
    (e ++ [k]).head? = some k ∧ (e ++ [k]).getLast? = some k ∧ (s.table ++ [e ++ [k]])[c.toNat]? = some (e ++ [k]) ∧
    ∃ (w : BitVec 4) (pl : Memory), WidthAfter s w ∧
      PlaneAfter (codePreamble s).plane pl (codePreamble s).cursor.toNat
        ((e ++ [k]).take (s.cfg.cw.toNat * s.cfg.ch.toNat - (codePreamble s).cursor.toNat)) ∧
      ((codePreamble s).cursor.toNat + (e.length + 1) ≤ s.cfg.cw.toNat * s.cfg.ch.toNat →
        exec (.kwk c) s = .next { codePreamble s with
          table := s.table ++ [e ++ [k]], codeSize := w, plane := pl
          cursor := BitVec.ofNat 32 ((codePreamble s).cursor.toNat + (e.length + 1)), hasPrev := true, prev := c }) ∧
      (s.cfg.cw.toNat * s.cfg.ch.toNat < (codePreamble s).cursor.toNat + (e.length + 1) →
        exec (.kwk c) s = .next (faulted .decodeOverrun (bitPos s) { codePreamble s with
          codeSize := w, plane := pl, cursor := BitVec.ofNat 32 (s.cfg.cw.toNat * s.cfg.ch.toNat) }))

/-- 44_data_codes.md R134: a code above `TLEN`, or equal to it with no previous code, is `BAD`: after fetch and skip it
faults with `BadCode` at its start bit; nothing is appended or emitted and `PREV` is kept. -/
def Obligations.BadCodeFaults : Prop :=
  (∀ (x : CodeCtx) (c : Code), x.maxIdx.toNat + 3 ≤ c.toNat →
    x.tlen < c.toNat ∨ (c.toNat = x.tlen ∧ x.hasPrev = false) → decodeCode x c = .bad c) ∧
  (∀ (c : Code) (s : State), exec (.bad c) s = .next (faulted .badCode (bitPos s) (codePreamble s)))

/-- Where a data code's meaning stops (the model's choice, log 10): at a slot that is not in use, or, for the index it
appends, at a slot that holds the empty sequence. By 10_state.md R43 no run reaches such a state. -/
def Obligations.MissingSlotsStop : Prop :=
  ∀ (c : Code) (s : State),
    (s.hasPrev = true → s.table.length < 4096 → s.table[s.prev.toNat]? = none →
      exec (.lit c) s = .fault .tableSlot) ∧
    (s.table[c.toNat]? = none ∨ s.table[c.toNat]? = some [] → exec (.ref c) s = .fault .tableSlot) ∧
    (s.table[s.prev.toNat]? = none ∨ s.table[s.prev.toNat]? = some [] → exec (.kwk c) s = .fault .tableSlot)

/-- 60_exceptions.md R159: fault entry writes the cause and the start bit, releases the table, goes to `FAULT`, keeps
every other register, and the decoder has no further step. -/
def Obligations.FaultEntryRecordsTheStartBit : Prop :=
  ∀ (f : Cause) (p : Nat) (s : State),
    raiseFault f p s = { s with
      table := [], hasPrev := false
      status := { s.status with
        cause := f, fbyte := BitVec.ofNat 32 (p / 8), fbit := BitVec.ofNat 3 (p % 8), run := .fault } } ∧
    decoderTurn (raiseFault f p s) = .next (raiseFault f p s)

/-- 44_data_codes.md R130: in every state a run reaches, whatever class a data code has, its meaning is the common
procedure DATA on the state after SKIP. -/
def Obligations.DataClassesAgreeWithData : Prop :=
  ∀ (s : State) (c : Code), Inv s → s.status.run = .busy →
    c.toNat ≠ s.cfg.maxIdx.toNat + 1 → c.toNat ≠ s.cfg.maxIdx.toNat + 2 →
    exec (decodeCode (codeCtx s) c) s = dataProcedure c (bitPos s) (codePreamble s)

/-- 44_data_codes.md R136: GROW adds one to the width exactly when the length equals `2^CODE_SIZE - GROW_BIAS` and the
width is below 12, and with the source's threshold that is at the lengths 3, 7, 15, … 2047 for the widths 2, 3, … 11;
the width never exceeds 12. -/
def Obligations.GrowAtTheThresholdOnly : Prop :=
  ∀ s : State,
    (s.table.length = 2 ^ s.codeSize.toNat - s.params.growBias.val ∧ s.codeSize.toNat < 12 →
      grow s = { s with codeSize := s.codeSize + 1#4 }) ∧
    (¬(s.table.length = 2 ^ s.codeSize.toNat - s.params.growBias.val ∧ s.codeSize.toNat < 12) → grow s = s) ∧
    (s.codeSize.toNat ≤ 12 → (grow s).codeSize.toNat ≤ 12) ∧
    (s.params.growBias = 1 → 2 ≤ s.codeSize.toNat → s.codeSize.toNat ≤ 12 →
      (grow s ≠ s ↔ (s.codeSize.toNat, s.table.length) ∈ [(2, 3), (3, 7), (4, 15), (5, 31), (6, 63), (7, 127),
        (8, 255), (9, 511), (10, 1023), (11, 2047)]))

/-- 44_data_codes.md R137: with a full table a data code appends nothing and does not widen the codes; it is resolved,
emitted and marked as usual. -/
def Obligations.FullTableStillDecodes : Prop :=
  ∀ (s : State) (c : Code), Inv s → s.status.run = .busy → s.table.length = 4096 →
    c.toNat ≠ s.cfg.maxIdx.toNat + 1 → c.toNat ≠ s.cfg.maxIdx.toNat + 2 →
    ∃ seq, s.table[c.toNat]? = some seq ∧
      exec (decodeCode (codeCtx s) c) s = .next (emitAndMark seq c (bitPos s) (codePreamble s))

/-- 60_exceptions.md R160: of a code that faults exactly this has happened: its fetch and its skip; and, for
`DecodeOverrun`, its append, its width growth and the writes of the indices that fitted. It is not marked. -/
def Obligations.FaultsArePrecise : Prop :=
  ∀ (s t : State) (c : Code), Inv s → s.status.run = .busy → fetch s = .code c →
    exec (decodeCode (codeCtx s) c) s = .next t → t.status.run = .fault →
    bitPos t = bitPos s + s.codeSize.toNat ∧ t.prev = s.prev ∧
    ((t.status.cause = .badCode ∧ t = faulted .badCode (bitPos s) (codePreamble s)) ∨
     (t.status.cause = .decodeOverrun ∧ ∃ (tbl : List (List Byte)) (seq : List Byte) (w : BitVec 4) (pl : Memory),
        (tbl = s.table ∨ ∃ e k, s.table[s.prev.toNat]? = some e ∧ seq.head? = some k ∧ tbl = s.table ++ [e ++ [k]]) ∧
        tbl[c.toNat]? = some seq ∧ WidthAfter s w ∧
        s.cfg.cw.toNat * s.cfg.ch.toNat < (codePreamble s).cursor.toNat + seq.length ∧
        PlaneAfter (codePreamble s).plane pl (codePreamble s).cursor.toNat
          (seq.take (s.cfg.cw.toNat * s.cfg.ch.toNat - (codePreamble s).cursor.toNat)) ∧
        t = faulted .decodeOverrun (bitPos s) { codePreamble s with
          codeSize := w, plane := pl, cursor := BitVec.ofNat 32 (s.cfg.cw.toNat * s.cfg.ch.toNat) }))

/-- 60_exceptions.md R158, for a decoder's turn of the schedule (log 1): exhausted input is `TRUNC` even if the canvas is not full; an invalid code reports `BadCode`
even where it would overrun; an `EOI` code on a full canvas is a normal end. -/
def Obligations.EventsHaveTheirPriority : Prop :=
  ∀ s : State, s.status.run = .busy → DecoderNext s →
    (8 * s.cfg.inLen.toNat < bitPos s + s.codeSize.toNat →
      ∃ t, step s = .next t ∧ t.status.run = .done ∧ t.status.trunc = true ∧ t.status.cause = s.status.cause) ∧
    (∀ c : Code, fetch s = .code c → s.cfg.maxIdx.toNat + 3 ≤ c.toNat →
      s.table.length < c.toNat ∨ (c.toNat = s.table.length ∧ s.hasPrev = false) →
      ∃ t, step s = .next t ∧ t.status.run = .fault ∧ t.status.cause = .badCode) ∧
    (∀ c : Code, fetch s = .code c → c.toNat = s.cfg.maxIdx.toNat + 2 →
      ∃ t, step s = .next t ∧ t.status.run = .done ∧ t.status.eoi = true ∧ t.status.cause = s.status.cause)

/-! ### Frames -/

/-- What no code changes (10_state.md R42, 20_memory.md R52, R58, R62): the configuration, IN, the host's claim and the
outside; and of PLANE only addresses from the cursor before it to the cursor after it, all below `CW*CH`, the skipped
ones among them only under Retain. -/
def Obligations.CodesLeaveEverythingElse : Prop :=
  ∀ (i : Instr) (s t : State), isCode i = true → exec i s = .next t →
    t.params = s.params ∧ t.cfg = s.cfg ∧ t.input = s.input ∧ t.planeValid = s.planeValid ∧ t.turns = s.turns ∧
    t.seen = s.seen ∧ t.draws = s.draws ∧
    (∀ a, a < s.cursor.toNat ∨ t.cursor.toNat ≤ a → Memory.read t.plane a = Memory.read s.plane a) ∧
    (∀ a, s.cfg.disposal.toNat ≠ 1 → a < (codePreamble s).cursor.toNat →
      Memory.read t.plane a = Memory.read s.plane a) ∧
    (s.cursor.toNat ≤ s.cfg.cw.toNat * s.cfg.ch.toNat →
      s.cursor.toNat ≤ t.cursor.toNat ∧ t.cursor.toNat ≤ s.cfg.cw.toNat * s.cfg.ch.toNat)

/-- 41_fetch.md R103 and R100 (b): `BITPOS` moves by the width of the code just read, in every class, and by nothing
else of the code. What comes before a code's own case (`codePreamble`, to which the statements about the codes refer) is
the fetch and then SKIP, in every class: the cursor stops at the first inside position or at `CW*CH`, the outside
positions passed are painted exactly under `DISPOSAL = 1`, and nothing but `BITPOS`, the cursor and those plane bytes
changes. -/
def Obligations.BitposMovesByTheWidth : Prop :=
  (∀ s : State, codePreamble s = skip (advance s)) ∧
  (∀ s : State, s.cursor.toNat ≤ s.cfg.cw.toNat * s.cfg.ch.toNat → ∃ (k : Nat) (pl : Memory),
    codePreamble s = { s with
      bytePos := BitVec.ofNat 32 ((bitPos s + s.codeSize.toNat) / 8)
      bitOff := BitVec.ofNat 3 ((bitPos s + s.codeSize.toNat) % 8)
      cursor := BitVec.ofNat 32 k, plane := pl } ∧
    s.cursor.toNat ≤ k ∧ k ≤ s.cfg.cw.toNat * s.cfg.ch.toNat ∧
    (∀ a, s.cursor.toNat ≤ a → a < k → inside s.cfg a = false) ∧
    (k = s.cfg.cw.toNat * s.cfg.ch.toNat ∨ inside s.cfg k = true) ∧
    ∀ a, Memory.read pl a = if s.cfg.disposal.toNat = 1 ∧ s.cursor.toNat ≤ a ∧ a < k then some s.cfg.tidx
      else Memory.read s.plane a) ∧
  (∀ (i : Instr) (s t : State), isCode i = true → exec i s = .next t →
    bitPos s + s.codeSize.toNat ≤ 8 * s.cfg.inLen.toNat → bitPos t = bitPos s + s.codeSize.toNat)

/-- 10_state.md R42: while `BUSY`, no step but hardware reset (a turn of the schedule, logs 1 and 12) changes a
configuration field or a byte of IN. -/
def Obligations.BusyFreezesTheConfiguration : Prop :=
  ∀ s t : State, s.status.run = .busy → (∀ ts, s.turns ≠ .reset :: ts) → step s = .next t →
    t.cfg = s.cfg ∧ t.input = s.input ∧ t.params = s.params

/-- 60_exceptions.md R162, R161: in `FAULT`, and in `DONE`, nothing but START or hardware reset (a turn of the
schedule, logs 1 and 12) changes `STATE`, the flags, `CAUSE`, `FBYTE` or `FBIT`. -/
def Obligations.EndStatesAreSticky : Prop :=
  ∀ s t : State, ended s = true → (∀ ts, s.turns ≠ .reset :: ts) →
    (∀ u ts, s.turns = u :: ts → ¬IssuesStart u) → step s = .next t → t.status = s.status

/-- 20_memory.md R51, R62: a byte of IN changes only by a host write of it or by hardware reset (turns of the schedule,
logs 1 and 12). -/
def Obligations.OnlyTheHostWritesInput : Prop :=
  ∀ s t : State, step s = .next t → (∀ ts, s.turns ≠ .reset :: ts) →
    ∀ x, Memory.read t.input x ≠ Memory.read s.input x →
      ∃ (a : Addr) (v : Byte) (ts : List Turn), s.turns = .host (.inWrite a v) :: ts ∧ x = a.toNat ∧
        Memory.read t.input x = some v ∧ s.status.run ≠ .busy

/-- 00_scope.md R9: the parameters are constants of the instance; no step changes them. -/
def Obligations.ParametersAreConstant : Prop :=
  ∀ s t : State, step s = .next t → t.params = s.params

/-- Read after write on the byte memories (00_scope.md R13): the byte written is read back, and every other address is
as it was, whatever the memory. -/
def Obligations.ReadAfterWrite : Prop :=
  ∀ (m : Memory) (a x : Nat) (v : Byte),
    Memory.read (Memory.write m a v) x = (if x = a then some v else Memory.read m x) ∧
    (Memory.wf m → Memory.wf (Memory.write m a v)) ∧
    (Memory.wf m → Memory.read m a = some v → Memory.write m a v = m)

/-! ### Whole-machine properties -/

/-- The invariant holds at reset. -/
def Obligations.ResetMeetsTheInvariant : Prop := Inv State.reset

/-- 10_state.md R43, R23, R24, R40: every step keeps the invariant, from every state that meets it. -/
def Obligations.EveryStepKeepsTheInvariant : Prop :=
  ∀ s t : State, Inv s → step s = .next t → Inv t

/-- 00_scope.md R14: a step of the decoder has one of three outcomes, next, end or fault, and a START command one of
two, with no refusal and nothing stuck inside the block. -/
def Obligations.DecoderStepIsTotal : Prop :=
  (∀ s : State, Inv s → s.status.run = .busy → DecoderNext s → ∃ t, step s = .next t ∧
    (t.status.run = .busy ∨
     (t.status.run = .done ∧ t.status.eoi = !t.status.trunc ∧ t.status.cause = .none) ∨
     (t.status.run = .fault ∧ (t.status.cause = .badCode ∨ t.status.cause = .decodeOverrun)))) ∧
  (∀ s : State, Inv s → s.status.run ≠ .busy → InputWritten s → ∃ t, exec .start s = .next t ∧
    (t.status.run = .busy ∨ (t.status.run = .fault ∧ t.status.cause = .badParam)))

/-- 60_exceptions.md R150: a frame decode that has ended has ended in exactly one of five ways, as the host reads
`STATUS` and `CAUSE`. -/
def Obligations.FrameDecodeEndsInFiveWays : Prop :=
  ∀ s : State, Inv s → ended s = true →
    (regRead s 1#4, (regRead s 2#4).extractLsb' 0 4) ∈
      [(0x6#32, 0#4), (0xA#32, 0#4), (0x3#32, 1#4), (0x3#32, 2#4), (0x3#32, 3#4)]

/-- 41_fetch.md R103, 70_reset_and_hazards.md R178: from every state of a frame decode, undisturbed, the frame decode
ends after at most `4*INLEN + 1` steps. -/
def Obligations.FrameDecodeEndsInTime : Prop :=
  ∀ s : State, Inv s → s.status.run = .busy → s.turns = [] →
    ∃ k t, k ≤ 4 * s.cfg.inLen.toNat + 1 ∧ core.run k s = .next t ∧ ended t = true

/-- 70_reset_and_hazards.md R171: a START rebuilds all that a frame decode needs, so nothing survives from an earlier
frame but the RW fields and the bytes of IN and PLANE. -/
def Obligations.StartForgetsTheEarlierFrame : Prop :=
  ∀ s t : State, s.status.run ≠ .busy → t.status.run ≠ .busy → s.params = t.params → s.cfg = t.cfg →
    InputWritten s → (∀ a, a < s.cfg.inLen.toNat → Memory.read s.input a = Memory.read t.input a) → ¬BadStart s →
    ∃ s' t', exec .start s = .next s' ∧ exec .start t = .next t' ∧ SameFrame s' t'

/-- Decoding the same byte stream twice is deterministic (95_test_vectors.md section 1, property 1; 10_state.md R42):
from two states that the frame decode cannot tell apart, any number of decoder steps ends in two such states, whatever
IN holds at and above `INLEN` and PLANE outside the frame. -/
def Obligations.FrameDecodeIsDeterministic : Prop :=
  ∀ (k : Nat) (s t s' : State), SameFrame s t → s.turns = [] → t.turns = [] → core.run k s = .next s' →
    ∃ t', core.run k t = .next t' ∧ SameFrame s' t'

/-- 30_encoding.md R73: the closed form of the code width is kept by every step. -/
def Obligations.CodeWidthFollowsTheTableLength : Prop :=
  ∀ s t : State, Inv s → (s.status.run = .busy → WidthLaw s) → step s = .next t → t.status.run = .busy → WidthLaw t
end

