-- ==== Sys2Proof/Laws/State.lean ====
section
/-! SUPPORT. What each update of State does to each field, true by rfl: no later proof unfolds a record update. -/

namespace Sys2Proof.Machine

/-! ### setBitPos -/

@[simp] theorem setBitPos_params (n : Nat) (s : State) : (setBitPos n s).params = s.params := rfl

@[simp] theorem setBitPos_cfg (n : Nat) (s : State) : (setBitPos n s).cfg = s.cfg := rfl

@[simp] theorem setBitPos_status (n : Nat) (s : State) : (setBitPos n s).status = s.status := rfl

@[simp] theorem setBitPos_codeSize (n : Nat) (s : State) : (setBitPos n s).codeSize = s.codeSize := rfl

@[simp] theorem setBitPos_hasPrev (n : Nat) (s : State) : (setBitPos n s).hasPrev = s.hasPrev := rfl

@[simp] theorem setBitPos_prev (n : Nat) (s : State) : (setBitPos n s).prev = s.prev := rfl

@[simp] theorem setBitPos_cursor (n : Nat) (s : State) : (setBitPos n s).cursor = s.cursor := rfl

@[simp] theorem setBitPos_bytePos (n : Nat) (s : State) : (setBitPos n s).bytePos = BitVec.ofNat 32 (n / 8) := rfl

@[simp] theorem setBitPos_bitOff (n : Nat) (s : State) : (setBitPos n s).bitOff = BitVec.ofNat 3 (n % 8) := rfl

@[simp] theorem setBitPos_table (n : Nat) (s : State) : (setBitPos n s).table = s.table := rfl

@[simp] theorem setBitPos_input (n : Nat) (s : State) : (setBitPos n s).input = s.input := rfl

@[simp] theorem setBitPos_plane (n : Nat) (s : State) : (setBitPos n s).plane = s.plane := rfl

@[simp] theorem setBitPos_planeValid (n : Nat) (s : State) : (setBitPos n s).planeValid = s.planeValid := rfl

@[simp] theorem setBitPos_turns (n : Nat) (s : State) : (setBitPos n s).turns = s.turns := rfl

@[simp] theorem setBitPos_seen (n : Nat) (s : State) : (setBitPos n s).seen = s.seen := rfl

@[simp] theorem setBitPos_draws (n : Nat) (s : State) : (setBitPos n s).draws = s.draws := rfl

/-! ### planeWrite -/

@[simp] theorem planeWrite_params (a : Nat) (v : Byte) (s : State) : (planeWrite a v s).params = s.params := rfl

@[simp] theorem planeWrite_cfg (a : Nat) (v : Byte) (s : State) : (planeWrite a v s).cfg = s.cfg := rfl

@[simp] theorem planeWrite_status (a : Nat) (v : Byte) (s : State) : (planeWrite a v s).status = s.status := rfl

@[simp] theorem planeWrite_codeSize (a : Nat) (v : Byte) (s : State) : (planeWrite a v s).codeSize = s.codeSize := rfl

@[simp] theorem planeWrite_hasPrev (a : Nat) (v : Byte) (s : State) : (planeWrite a v s).hasPrev = s.hasPrev := rfl

@[simp] theorem planeWrite_prev (a : Nat) (v : Byte) (s : State) : (planeWrite a v s).prev = s.prev := rfl

@[simp] theorem planeWrite_cursor (a : Nat) (v : Byte) (s : State) : (planeWrite a v s).cursor = s.cursor := rfl

@[simp] theorem planeWrite_bytePos (a : Nat) (v : Byte) (s : State) : (planeWrite a v s).bytePos = s.bytePos := rfl

@[simp] theorem planeWrite_bitOff (a : Nat) (v : Byte) (s : State) : (planeWrite a v s).bitOff = s.bitOff := rfl

@[simp] theorem planeWrite_table (a : Nat) (v : Byte) (s : State) : (planeWrite a v s).table = s.table := rfl

@[simp] theorem planeWrite_input (a : Nat) (v : Byte) (s : State) : (planeWrite a v s).input = s.input := rfl

@[simp] theorem planeWrite_plane (a : Nat) (v : Byte) (s : State) : (planeWrite a v s).plane = Memory.write s.plane a v := rfl

@[simp] theorem planeWrite_planeValid (a : Nat) (v : Byte) (s : State) : (planeWrite a v s).planeValid = s.planeValid := rfl

@[simp] theorem planeWrite_turns (a : Nat) (v : Byte) (s : State) : (planeWrite a v s).turns = s.turns := rfl

@[simp] theorem planeWrite_seen (a : Nat) (v : Byte) (s : State) : (planeWrite a v s).seen = s.seen := rfl

@[simp] theorem planeWrite_draws (a : Nat) (v : Byte) (s : State) : (planeWrite a v s).draws = s.draws := rfl

/-! ### stepCursor -/

@[simp] theorem stepCursor_params (s : State) : (stepCursor s).params = s.params := rfl

@[simp] theorem stepCursor_cfg (s : State) : (stepCursor s).cfg = s.cfg := rfl

@[simp] theorem stepCursor_status (s : State) : (stepCursor s).status = s.status := rfl

@[simp] theorem stepCursor_codeSize (s : State) : (stepCursor s).codeSize = s.codeSize := rfl

@[simp] theorem stepCursor_hasPrev (s : State) : (stepCursor s).hasPrev = s.hasPrev := rfl

@[simp] theorem stepCursor_prev (s : State) : (stepCursor s).prev = s.prev := rfl

@[simp] theorem stepCursor_cursor (s : State) : (stepCursor s).cursor = s.cursor + 1#32 := rfl

@[simp] theorem stepCursor_bytePos (s : State) : (stepCursor s).bytePos = s.bytePos := rfl

@[simp] theorem stepCursor_bitOff (s : State) : (stepCursor s).bitOff = s.bitOff := rfl

@[simp] theorem stepCursor_table (s : State) : (stepCursor s).table = s.table := rfl

@[simp] theorem stepCursor_input (s : State) : (stepCursor s).input = s.input := rfl

@[simp] theorem stepCursor_plane (s : State) : (stepCursor s).plane = s.plane := rfl

@[simp] theorem stepCursor_planeValid (s : State) : (stepCursor s).planeValid = s.planeValid := rfl

@[simp] theorem stepCursor_turns (s : State) : (stepCursor s).turns = s.turns := rfl

@[simp] theorem stepCursor_seen (s : State) : (stepCursor s).seen = s.seen := rfl

@[simp] theorem stepCursor_draws (s : State) : (stepCursor s).draws = s.draws := rfl

/-! ### release -/

@[simp] theorem release_params (s : State) : (release s).params = s.params := rfl

@[simp] theorem release_cfg (s : State) : (release s).cfg = s.cfg := rfl

@[simp] theorem release_status (s : State) : (release s).status = s.status := rfl

@[simp] theorem release_codeSize (s : State) : (release s).codeSize = s.codeSize := rfl

@[simp] theorem release_hasPrev (s : State) : (release s).hasPrev = false := rfl

@[simp] theorem release_prev (s : State) : (release s).prev = s.prev := rfl

@[simp] theorem release_cursor (s : State) : (release s).cursor = s.cursor := rfl

@[simp] theorem release_bytePos (s : State) : (release s).bytePos = s.bytePos := rfl

@[simp] theorem release_bitOff (s : State) : (release s).bitOff = s.bitOff := rfl

@[simp] theorem release_table (s : State) : (release s).table = [] := rfl

@[simp] theorem release_input (s : State) : (release s).input = s.input := rfl

@[simp] theorem release_plane (s : State) : (release s).plane = s.plane := rfl

@[simp] theorem release_planeValid (s : State) : (release s).planeValid = s.planeValid := rfl

@[simp] theorem release_turns (s : State) : (release s).turns = s.turns := rfl

@[simp] theorem release_seen (s : State) : (release s).seen = s.seen := rfl

@[simp] theorem release_draws (s : State) : (release s).draws = s.draws := rfl

/-! ### mark -/

@[simp] theorem mark_params (c : Code) (s : State) : (mark c s).params = s.params := rfl

@[simp] theorem mark_cfg (c : Code) (s : State) : (mark c s).cfg = s.cfg := rfl

@[simp] theorem mark_status (c : Code) (s : State) : (mark c s).status = s.status := rfl

@[simp] theorem mark_codeSize (c : Code) (s : State) : (mark c s).codeSize = s.codeSize := rfl

@[simp] theorem mark_hasPrev (c : Code) (s : State) : (mark c s).hasPrev = true := rfl

@[simp] theorem mark_prev (c : Code) (s : State) : (mark c s).prev = c := rfl

@[simp] theorem mark_cursor (c : Code) (s : State) : (mark c s).cursor = s.cursor := rfl

@[simp] theorem mark_bytePos (c : Code) (s : State) : (mark c s).bytePos = s.bytePos := rfl

@[simp] theorem mark_bitOff (c : Code) (s : State) : (mark c s).bitOff = s.bitOff := rfl

@[simp] theorem mark_table (c : Code) (s : State) : (mark c s).table = s.table := rfl

@[simp] theorem mark_input (c : Code) (s : State) : (mark c s).input = s.input := rfl

@[simp] theorem mark_plane (c : Code) (s : State) : (mark c s).plane = s.plane := rfl

@[simp] theorem mark_planeValid (c : Code) (s : State) : (mark c s).planeValid = s.planeValid := rfl

@[simp] theorem mark_turns (c : Code) (s : State) : (mark c s).turns = s.turns := rfl

@[simp] theorem mark_seen (c : Code) (s : State) : (mark c s).seen = s.seen := rfl

@[simp] theorem mark_draws (c : Code) (s : State) : (mark c s).draws = s.draws := rfl

/-! ### append -/

@[simp] theorem append_params (e : List Byte) (s : State) : (append e s).params = s.params := rfl

@[simp] theorem append_cfg (e : List Byte) (s : State) : (append e s).cfg = s.cfg := rfl

@[simp] theorem append_status (e : List Byte) (s : State) : (append e s).status = s.status := rfl

@[simp] theorem append_codeSize (e : List Byte) (s : State) : (append e s).codeSize = s.codeSize := rfl

@[simp] theorem append_hasPrev (e : List Byte) (s : State) : (append e s).hasPrev = s.hasPrev := rfl

@[simp] theorem append_prev (e : List Byte) (s : State) : (append e s).prev = s.prev := rfl

@[simp] theorem append_cursor (e : List Byte) (s : State) : (append e s).cursor = s.cursor := rfl

@[simp] theorem append_bytePos (e : List Byte) (s : State) : (append e s).bytePos = s.bytePos := rfl

@[simp] theorem append_bitOff (e : List Byte) (s : State) : (append e s).bitOff = s.bitOff := rfl

@[simp] theorem append_table (e : List Byte) (s : State) : (append e s).table = s.table ++ [e] := rfl

@[simp] theorem append_input (e : List Byte) (s : State) : (append e s).input = s.input := rfl

@[simp] theorem append_plane (e : List Byte) (s : State) : (append e s).plane = s.plane := rfl

@[simp] theorem append_planeValid (e : List Byte) (s : State) : (append e s).planeValid = s.planeValid := rfl

@[simp] theorem append_turns (e : List Byte) (s : State) : (append e s).turns = s.turns := rfl

@[simp] theorem append_seen (e : List Byte) (s : State) : (append e s).seen = s.seen := rfl

@[simp] theorem append_draws (e : List Byte) (s : State) : (append e s).draws = s.draws := rfl

/-! ### rebuild -/

@[simp] theorem rebuild_params (s : State) : (rebuild s).params = s.params := rfl

@[simp] theorem rebuild_cfg (s : State) : (rebuild s).cfg = s.cfg := rfl

@[simp] theorem rebuild_status (s : State) : (rebuild s).status = s.status := rfl

@[simp] theorem rebuild_codeSize (s : State) : (rebuild s).codeSize = BitVec.ofNat 4 (s.cfg.minCode.toNat + 1) := rfl

@[simp] theorem rebuild_hasPrev (s : State) : (rebuild s).hasPrev = false := rfl

@[simp] theorem rebuild_prev (s : State) : (rebuild s).prev = s.prev := rfl

@[simp] theorem rebuild_cursor (s : State) : (rebuild s).cursor = s.cursor := rfl

@[simp] theorem rebuild_bytePos (s : State) : (rebuild s).bytePos = s.bytePos := rfl

@[simp] theorem rebuild_bitOff (s : State) : (rebuild s).bitOff = s.bitOff := rfl

@[simp] theorem rebuild_table (s : State) : (rebuild s).table = initialTable s.cfg.maxIdx := rfl

@[simp] theorem rebuild_input (s : State) : (rebuild s).input = s.input := rfl

@[simp] theorem rebuild_plane (s : State) : (rebuild s).plane = s.plane := rfl

@[simp] theorem rebuild_planeValid (s : State) : (rebuild s).planeValid = s.planeValid := rfl

@[simp] theorem rebuild_turns (s : State) : (rebuild s).turns = s.turns := rfl

@[simp] theorem rebuild_seen (s : State) : (rebuild s).seen = s.seen := rfl

@[simp] theorem rebuild_draws (s : State) : (rebuild s).draws = s.draws := rfl

/-! ### clearResults -/

@[simp] theorem clearResults_params (s : State) : (clearResults s).params = s.params := rfl

@[simp] theorem clearResults_cfg (s : State) : (clearResults s).cfg = s.cfg := rfl

@[simp] theorem clearResults_status (s : State) :
    (clearResults s).status = { s.status with eoi := false, trunc := false, cause := .none, fbyte := 0#32, fbit := 0#3 } := rfl

@[simp] theorem clearResults_codeSize (s : State) : (clearResults s).codeSize = 0#4 := rfl

@[simp] theorem clearResults_hasPrev (s : State) : (clearResults s).hasPrev = false := rfl

@[simp] theorem clearResults_prev (s : State) : (clearResults s).prev = 0#12 := rfl

@[simp] theorem clearResults_cursor (s : State) : (clearResults s).cursor = 0#32 := rfl

@[simp] theorem clearResults_bytePos (s : State) : (clearResults s).bytePos = 0#32 := rfl

@[simp] theorem clearResults_bitOff (s : State) : (clearResults s).bitOff = 0#3 := rfl

@[simp] theorem clearResults_table (s : State) : (clearResults s).table = [] := rfl

@[simp] theorem clearResults_input (s : State) : (clearResults s).input = s.input := rfl

@[simp] theorem clearResults_plane (s : State) : (clearResults s).plane = s.plane := rfl

@[simp] theorem clearResults_planeValid (s : State) : (clearResults s).planeValid = s.planeValid := rfl

@[simp] theorem clearResults_turns (s : State) : (clearResults s).turns = s.turns := rfl

@[simp] theorem clearResults_seen (s : State) : (clearResults s).seen = s.seen := rfl

@[simp] theorem clearResults_draws (s : State) : (clearResults s).draws = s.draws := rfl

/-! ### raiseFault -/

@[simp] theorem raiseFault_params (f : Cause) (p : Nat) (s : State) : (raiseFault f p s).params = s.params := rfl

@[simp] theorem raiseFault_cfg (f : Cause) (p : Nat) (s : State) : (raiseFault f p s).cfg = s.cfg := rfl

@[simp] theorem raiseFault_status (f : Cause) (p : Nat) (s : State) :
    (raiseFault f p s).status = { s.status with cause := f, fbyte := BitVec.ofNat 32 (p / 8), fbit := BitVec.ofNat 3 (p % 8), run := .fault } := rfl

@[simp] theorem raiseFault_codeSize (f : Cause) (p : Nat) (s : State) : (raiseFault f p s).codeSize = s.codeSize := rfl

@[simp] theorem raiseFault_hasPrev (f : Cause) (p : Nat) (s : State) : (raiseFault f p s).hasPrev = false := rfl

@[simp] theorem raiseFault_prev (f : Cause) (p : Nat) (s : State) : (raiseFault f p s).prev = s.prev := rfl

@[simp] theorem raiseFault_cursor (f : Cause) (p : Nat) (s : State) : (raiseFault f p s).cursor = s.cursor := rfl

@[simp] theorem raiseFault_bytePos (f : Cause) (p : Nat) (s : State) : (raiseFault f p s).bytePos = s.bytePos := rfl

@[simp] theorem raiseFault_bitOff (f : Cause) (p : Nat) (s : State) : (raiseFault f p s).bitOff = s.bitOff := rfl

@[simp] theorem raiseFault_table (f : Cause) (p : Nat) (s : State) : (raiseFault f p s).table = [] := rfl

@[simp] theorem raiseFault_input (f : Cause) (p : Nat) (s : State) : (raiseFault f p s).input = s.input := rfl

@[simp] theorem raiseFault_plane (f : Cause) (p : Nat) (s : State) : (raiseFault f p s).plane = s.plane := rfl

@[simp] theorem raiseFault_planeValid (f : Cause) (p : Nat) (s : State) : (raiseFault f p s).planeValid = s.planeValid := rfl

@[simp] theorem raiseFault_turns (f : Cause) (p : Nat) (s : State) : (raiseFault f p s).turns = s.turns := rfl

@[simp] theorem raiseFault_seen (f : Cause) (p : Nat) (s : State) : (raiseFault f p s).seen = s.seen := rfl

@[simp] theorem raiseFault_draws (f : Cause) (p : Nat) (s : State) : (raiseFault f p s).draws = s.draws := rfl

/-! ### endFrame -/

@[simp] theorem endFrame_params (k : EndKind) (s : State) : (endFrame k s).params = s.params := rfl

@[simp] theorem endFrame_cfg (k : EndKind) (s : State) : (endFrame k s).cfg = s.cfg := rfl

@[simp] theorem endFrame_status (k : EndKind) (s : State) :
    (endFrame k s).status = { s.status with eoi := s.status.eoi || (k == .eoi), trunc := s.status.trunc || (k == .trunc), run := .done } := rfl

@[simp] theorem endFrame_codeSize (k : EndKind) (s : State) : (endFrame k s).codeSize = s.codeSize := rfl

@[simp] theorem endFrame_hasPrev (k : EndKind) (s : State) : (endFrame k s).hasPrev = false := rfl

@[simp] theorem endFrame_prev (k : EndKind) (s : State) : (endFrame k s).prev = s.prev := rfl

@[simp] theorem endFrame_cursor (k : EndKind) (s : State) : (endFrame k s).cursor = s.cursor := rfl

@[simp] theorem endFrame_bytePos (k : EndKind) (s : State) : (endFrame k s).bytePos = s.bytePos := rfl

@[simp] theorem endFrame_bitOff (k : EndKind) (s : State) : (endFrame k s).bitOff = s.bitOff := rfl

@[simp] theorem endFrame_table (k : EndKind) (s : State) : (endFrame k s).table = [] := rfl

@[simp] theorem endFrame_input (k : EndKind) (s : State) : (endFrame k s).input = s.input := rfl

@[simp] theorem endFrame_plane (k : EndKind) (s : State) : (endFrame k s).plane = s.plane := rfl

@[simp] theorem endFrame_planeValid (k : EndKind) (s : State) : (endFrame k s).planeValid = s.planeValid := rfl

@[simp] theorem endFrame_turns (k : EndKind) (s : State) : (endFrame k s).turns = s.turns := rfl

@[simp] theorem endFrame_seen (k : EndKind) (s : State) : (endFrame k s).seen = s.seen := rfl

@[simp] theorem endFrame_draws (k : EndKind) (s : State) : (endFrame k s).draws = s.draws := rfl

/-! ### failStart -/

@[simp] theorem failStart_params (s : State) : (failStart s).params = s.params := rfl

@[simp] theorem failStart_cfg (s : State) : (failStart s).cfg = s.cfg := rfl

@[simp] theorem failStart_status (s : State) :
    (failStart s).status = { s.status with cause := .badParam, run := .fault } := rfl

@[simp] theorem failStart_codeSize (s : State) : (failStart s).codeSize = s.codeSize := rfl

@[simp] theorem failStart_hasPrev (s : State) : (failStart s).hasPrev = s.hasPrev := rfl

@[simp] theorem failStart_prev (s : State) : (failStart s).prev = s.prev := rfl

@[simp] theorem failStart_cursor (s : State) : (failStart s).cursor = s.cursor := rfl

@[simp] theorem failStart_bytePos (s : State) : (failStart s).bytePos = s.bytePos := rfl

@[simp] theorem failStart_bitOff (s : State) : (failStart s).bitOff = s.bitOff := rfl

@[simp] theorem failStart_table (s : State) : (failStart s).table = s.table := rfl

@[simp] theorem failStart_input (s : State) : (failStart s).input = s.input := rfl

@[simp] theorem failStart_plane (s : State) : (failStart s).plane = s.plane := rfl

@[simp] theorem failStart_planeValid (s : State) : (failStart s).planeValid = false := rfl

@[simp] theorem failStart_turns (s : State) : (failStart s).turns = s.turns := rfl

@[simp] theorem failStart_seen (s : State) : (failStart s).seen = s.seen := rfl

@[simp] theorem failStart_draws (s : State) : (failStart s).draws = s.draws := rfl

/-! ### launch -/

@[simp] theorem launch_params (s : State) : (launch s).params = s.params := rfl

@[simp] theorem launch_cfg (s : State) : (launch s).cfg = s.cfg := rfl

@[simp] theorem launch_status (s : State) : (launch s).status = { s.status with run := .busy } := rfl

@[simp] theorem launch_codeSize (s : State) : (launch s).codeSize = BitVec.ofNat 4 (s.cfg.minCode.toNat + 1) := rfl

@[simp] theorem launch_hasPrev (s : State) : (launch s).hasPrev = false := rfl

@[simp] theorem launch_prev (s : State) : (launch s).prev = s.prev := rfl

@[simp] theorem launch_cursor (s : State) : (launch s).cursor = s.cursor := rfl

@[simp] theorem launch_bytePos (s : State) : (launch s).bytePos = s.bytePos := rfl

@[simp] theorem launch_bitOff (s : State) : (launch s).bitOff = s.bitOff := rfl

@[simp] theorem launch_table (s : State) : (launch s).table = initialTable s.cfg.maxIdx := rfl

@[simp] theorem launch_input (s : State) : (launch s).input = s.input := rfl

@[simp] theorem launch_plane (s : State) : (launch s).plane = Memory.zeroBelow (canvas s) s.plane := rfl

@[simp] theorem launch_planeValid (s : State) : (launch s).planeValid = true := rfl

@[simp] theorem launch_turns (s : State) : (launch s).turns = s.turns := rfl

@[simp] theorem launch_seen (s : State) : (launch s).seen = s.seen := rfl

@[simp] theorem launch_draws (s : State) : (launch s).draws = s.draws := rfl

/-! ### Derived views -/

@[simp] theorem canvas_planeWrite (a : Nat) (v : Byte) (s : State) : canvas (planeWrite a v s) = canvas s := rfl

@[simp] theorem canvas_stepCursor (s : State) : canvas (stepCursor s) = canvas s := rfl

@[simp] theorem canvas_setBitPos (n : Nat) (s : State) : canvas (setBitPos n s) = canvas s := rfl

@[simp] theorem canvas_append (e : List Byte) (s : State) : canvas (append e s) = canvas s := rfl

@[simp] theorem tlen_append (e : List Byte) (s : State) : tlen (append e s) = tlen s + 1 := by
  simp [tlen]

@[simp] theorem hardwareReset_eq (s : State) :
    hardwareReset s = { State.resetOf s.params with turns := s.turns, seen := s.seen, draws := s.draws } := rfl

end Sys2Proof.Machine
end

