-- ==== Sys2Proof/Laws/Memory.lean ====
section
/-! SUPPORT. Byte memories: read after write, and that every operation keeps the canonical form. -/

namespace Sys2Proof.Machine.Memory

@[simp] theorem read_nil (a : Nat) : read [] a = none := rfl

theorem read_cons (k : Nat) (b : Byte) (m : Memory) (a : Nat) :
    read ((k, b) :: m) a = if k = a then some b else read m a := rfl

/-- An address has no value exactly when no cell lists it. -/
theorem read_eq_none_iff (m : Memory) (a : Nat) : read m a = none ↔ ∀ c ∈ m, c.1 ≠ a := by
  induction m with
  | nil => simp
  | cons c m ih =>
    obtain ⟨k, b⟩ := c
    by_cases h : k = a <;> simp [read_cons, h, ih]

theorem read_write_same (m : Memory) (a : Nat) (v : Byte) : read (write m a v) a = some v := by
  induction m with
  | nil => simp [write, read_cons]
  | cons c m ih =>
    obtain ⟨k, b⟩ := c
    simp only [write]
    split
    · simp [read_cons]
    · split
      · simp [read_cons]
      · rw [read_cons, if_neg (by omega), ih]

theorem read_write_other (m : Memory) (a x : Nat) (v : Byte) (h : x ≠ a) : read (write m a v) x = read m x := by
  induction m with
  | nil => simp [write, read_cons, Ne.symm h]
  | cons c m ih =>
    obtain ⟨k, b⟩ := c
    simp only [write]
    split
    · rw [read_cons, if_neg (Ne.symm h)]
    · split
      · subst_vars; rw [read_cons, read_cons, if_neg (Ne.symm h), if_neg (Ne.symm h)]
      · rw [read_cons, read_cons, ih]

/-- The one fact about a read after a write. -/
theorem read_write (m : Memory) (a x : Nat) (v : Byte) :
    read (write m a v) x = if x = a then some v else read m x := by
  split
  · subst_vars; exact read_write_same m _ v
  · exact read_write_other m a x v ‹_›

theorem mem_write (m : Memory) (a : Nat) (v : Byte) (c : Host.Cell) (h : c ∈ write m a v) :
    c = (a, v) ∨ c ∈ m := by
  induction m with
  | nil => simpa [write] using h
  | cons d m ih =>
    obtain ⟨k, b⟩ := d
    simp only [write] at h
    split at h
    · simpa using h
    · split at h
      · rcases List.mem_cons.1 h with h | h
        · exact .inl h
        · exact .inr (List.mem_cons_of_mem _ h)
      · rcases List.mem_cons.1 h with h | h
        · exact .inr (h ▸ List.mem_cons_self)
        · rcases ih h with h | h
          · exact .inl h
          · exact .inr (List.mem_cons_of_mem _ h)

/-- A write keeps the canonical form. -/
theorem write_wf (m : Memory) (a : Nat) (v : Byte) (h : wf m) : wf (write m a v) := by
  induction m with
  | nil => simp [write, wf]
  | cons d m ih =>
    obtain ⟨k, b⟩ := d
    obtain ⟨hk, hm⟩ := List.pairwise_cons.1 h
    simp only [write]
    split
    · refine List.pairwise_cons.2 ⟨fun c hc => ?_, h⟩
      rcases List.mem_cons.1 hc with rfl | hc
      · assumption
      · have := hk c hc; simp only at this ⊢; omega
    · split
      · subst_vars; exact List.pairwise_cons.2 ⟨hk, hm⟩
      · refine List.pairwise_cons.2 ⟨fun c hc => ?_, ih hm⟩
        rcases mem_write m a v c hc with rfl | hc
        · simp only; omega
        · exact hk c hc

/-- A write below the capacity keeps a memory in its form and inside its space. -/
theorem write_ok (m : Memory) (a cap : Nat) (v : Byte) (h : ok m cap) (ha : a < cap) : ok (write m a v) cap :=
  ⟨write_wf m a v h.1, fun c hc => by
    rcases mem_write m a v c hc with rfl | hc
    · exact ha
    · exact h.2 c hc⟩

theorem read_append (m n : Memory) (a : Nat) : read (m ++ n) a = (read m a).or (read n a) := by
  induction m with
  | nil => simp
  | cons c m ih =>
    obtain ⟨k, b⟩ := c
    by_cases h : k = a <;> simp [read_cons, h, ih]

theorem read_zeros (n a : Nat) :
    read ((List.range n).map fun a => (a, 0#8)) a = if a < n then some 0#8 else none := by
  induction n with
  | zero => simp
  | succ n ih =>
    rw [List.range_succ, List.map_append, read_append, ih]
    by_cases h : a < n
    · simp [h, Nat.lt_succ_of_lt h]
    · by_cases h' : n = a
      · simp [read_cons, h']
      · have : ¬ a < n + 1 := by omega
        simp [read_cons, h, h', this]

theorem read_filter_ge (n : Nat) (m : Memory) (a : Nat) :
    read (m.filter fun c => decide (n ≤ c.1)) a = if n ≤ a then read m a else none := by
  induction m with
  | nil => simp
  | cons c m ih =>
    obtain ⟨k, b⟩ := c
    by_cases hk : n ≤ k
    · rw [List.filter_cons_of_pos (by simpa using hk), read_cons, read_cons, ih]
      by_cases h : k = a
      · simp [h]; omega
      · simp [h]
    · rw [List.filter_cons_of_neg (by simpa using hk), ih, read_cons]
      by_cases ha : n ≤ a
      · rw [if_pos ha, if_pos ha, if_neg (by omega)]
      · rw [if_neg ha, if_neg ha]

/-- START's zero fill: 0 below the bound, unchanged at and above it (40_host_commands.md R92 step 3). -/
theorem read_zeroBelow (n : Nat) (m : Memory) (a : Nat) :
    read (zeroBelow n m) a = if a < n then some 0#8 else read m a := by
  rw [zeroBelow, read_append, read_zeros, read_filter_ge]
  by_cases h : a < n
  · simp [h]
  · simp [h, Nat.le_of_not_lt h]

theorem zeroBelow_wf (n : Nat) (m : Memory) (h : wf m) : wf (zeroBelow n m) := by
  refine List.pairwise_append.2 ⟨?_, List.Pairwise.filter _ h, ?_⟩
  · exact List.pairwise_map.2 List.pairwise_lt_range
  · intro x hx y hy
    obtain ⟨i, hi, rfl⟩ := List.mem_map.1 hx
    have h1 := List.mem_range.1 hi
    have h2 : n ≤ y.1 := by simpa using (List.mem_filter.1 hy).2
    simp only; omega

theorem zeroBelow_ok (n cap : Nat) (m : Memory) (h : ok m cap) (hn : n ≤ cap) : ok (zeroBelow n m) cap := by
  refine ⟨zeroBelow_wf n m h.1, fun c hc => ?_⟩
  rcases List.mem_append.1 hc with hc | hc
  · obtain ⟨i, hi, rfl⟩ := List.mem_map.1 hc
    have := List.mem_range.1 hi
    simp only; omega
  · exact h.2 c (List.mem_filter.1 hc).1

theorem ok_nil (cap : Nat) : ok [] cap := ⟨List.Pairwise.nil, by simp⟩

theorem covers_iff (m : Memory) (n : Nat) : covers m n = true ↔ ∀ a, a < n → (read m a).isSome = true := by
  simp [covers]

end Sys2Proof.Machine.Memory
end

