-- ==== Sys2Proof/Laws/Cursor.lean ====
section
/-! SUPPORT. Everything SKIP and EMIT can do (42_cursor_skip.md R111, R112; 44_data_codes.md R138). -/

namespace Sys2Proof.Machine

/-- `CW*CH` is below `2^32`, so the cursor never wraps (00_scope.md R15). -/
theorem canvas_lt (s : State) : canvas s < 4294967296 := by
  have h1 := s.cfg.cw.isLt
  have h2 := s.cfg.ch.isLt
  have : s.cfg.cw.toNat * s.cfg.ch.toNat ≤ 65535 * 65535 := Nat.mul_le_mul (by omega) (by omega)
  unfold canvas; omega

theorem toNat_succ_cursor (s : State) (h : s.cursor.toNat < canvas s) :
    (s.cursor + 1#32).toNat = s.cursor.toNat + 1 := by
  have := canvas_lt s
  rw [BitVec.toNat_add]
  have : (1#32).toNat = 1 := rfl
  rw [this]; omega

/-- The plane after SKIP's turn on one outside position. -/
theorem passOutside_eq (s : State) : passOutside s =
    { s with cursor := s.cursor + 1#32,
             plane := if s.cfg.disposal = 1#3 then Memory.write s.plane s.cursor.toNat s.cfg.tidx else s.plane } := by
  unfold passOutside; split <;> rfl

/-- What SKIP is allowed to do, from `s` to `t`. -/
structure SkipTo (s t : State) : Prop where
  /-- Nothing but the cursor and the plane changes. -/
  frame : t = { s with cursor := t.cursor, plane := t.plane }
  le : s.cursor.toNat ≤ t.cursor.toNat
  bound : t.cursor.toNat ≤ max s.cursor.toNat (canvas s)
  passed : ∀ a, s.cursor.toNat ≤ a → a < t.cursor.toNat → inside s.cfg a = false
  painted : ∀ a, Memory.read t.plane a =
    if s.cfg.disposal = 1#3 ∧ s.cursor.toNat ≤ a ∧ a < t.cursor.toNat then some s.cfg.tidx else Memory.read s.plane a
  wf : ∀ cap, canvas s ≤ cap → Memory.ok s.plane cap → Memory.ok t.plane cap

theorem SkipTo.refl (s : State) : SkipTo s s where
  frame := rfl
  le := Nat.le_refl _
  bound := Nat.le_max_left _ _
  passed := fun a h1 h2 => by omega
  painted := fun a => by rw [if_neg (by omega)]
  wf := fun _ _ h => h

theorem SkipTo.step {s t : State} (hc : s.cursor.toNat < canvas s) (ho : inside s.cfg s.cursor.toNat = false)
    (h : SkipTo (passOutside s) t) : SkipTo s t := by
  have hcur : (passOutside s).cursor.toNat = s.cursor.toNat + 1 := by
    rw [passOutside_eq]; exact toNat_succ_cursor s hc
  have hcfg : (passOutside s).cfg = s.cfg := by rw [passOutside_eq]
  have hcan : canvas (passOutside s) = canvas s := by simp [canvas, hcfg]
  have hpl : (passOutside s).plane =
      if s.cfg.disposal = 1#3 then Memory.write s.plane s.cursor.toNat s.cfg.tidx else s.plane := by
    rw [passOutside_eq]
  refine ⟨?_, ?_, ?_, ?_, ?_, ?_⟩
  · have := h.frame; rw [passOutside_eq] at this; simpa using this
  · have := h.le; omega
  · have := h.bound; rw [hcan, hcur] at this; omega
  · intro a h1 h2
    by_cases ha : a = s.cursor.toNat
    · rw [ha]; exact ho
    · have := h.passed a (by omega) h2; rwa [hcfg] at this
  · intro a
    have hle := h.le
    rw [h.painted a, hcfg, hcur, hpl]
    by_cases hd : s.cfg.disposal = 1#3
    · simp only [hd, if_true, true_and, Memory.read_write]
      by_cases ha : a = s.cursor.toNat
      · rw [if_neg (by omega), if_pos ha, if_pos (by omega)]
      · by_cases hr : s.cursor.toNat + 1 ≤ a ∧ a < t.cursor.toNat
        · rw [if_pos hr, if_pos (by omega)]
        · rw [if_neg hr, if_neg ha, if_neg (by omega)]
    · simp [hd]
  · intro cap hcap hok
    refine h.wf cap (by omega) ?_
    rw [hpl]
    split
    · exact Memory.write_ok _ _ _ _ hok (by omega)
    · exact hok

theorem skipLoop_skipTo (n : Nat) (s : State) : SkipTo s (skipLoop n s) := by
  induction n generalizing s with
  | zero => exact SkipTo.refl s
  | succ n ih =>
    unfold skipLoop
    split
    · exact (ih _).step (by omega) (by simp_all)
    · exact SkipTo.refl s

theorem skipLoop_stops (n : Nat) (s : State) (hn : canvas s - s.cursor.toNat ≤ n) :
    canvas s ≤ (skipLoop n s).cursor.toNat ∨ inside s.cfg (skipLoop n s).cursor.toNat = true := by
  induction n generalizing s with
  | zero => exact .inl (by unfold skipLoop; omega)
  | succ n ih =>
    unfold skipLoop
    split
    · rename_i h
      have hcur : (passOutside s).cursor.toNat = s.cursor.toNat + 1 := by
        rw [passOutside_eq]; exact toNat_succ_cursor s h.1
      have hcfg : (passOutside s).cfg = s.cfg := by rw [passOutside_eq]
      have hcan : canvas (passOutside s) = canvas s := by simp [canvas, hcfg]
      have := ih (passOutside s) (by omega)
      rwa [hcan, hcfg] at this
    · rename_i h
      by_cases hc : s.cursor.toNat < canvas s
      · right; by_contra hi; exact h ⟨hc, by simpa using hi⟩
      · left; omega

/-- Everything SKIP can do (42_cursor_skip.md R111, R112). -/
theorem skip_skipTo (s : State) : SkipTo s (skip s) := skipLoop_skipTo _ s

/-- After SKIP the canvas is used up or the cursor is at an inside position (42_cursor_skip.md R111). -/
theorem skip_stops (s : State) :
    canvas s ≤ (skip s).cursor.toNat ∨ inside s.cfg (skip s).cursor.toNat = true :=
  skipLoop_stops _ s (Nat.le_refl _)

/-- What EMIT of `n` indices `e` is allowed to do, from `s` to `t`. -/
structure EmitTo (e : List Byte) (s t : State) : Prop where
  /-- Nothing but the cursor and the plane changes. -/
  frame : t = { s with cursor := t.cursor, plane := t.plane }
  cursor : t.cursor.toNat = s.cursor.toNat + min e.length (canvas s - s.cursor.toNat)
  written : ∀ a, Memory.read t.plane a =
    if s.cursor.toNat ≤ a ∧ a < t.cursor.toNat then e[a - s.cursor.toNat]? else Memory.read s.plane a
  wf : ∀ cap, canvas s ≤ cap → Memory.ok s.plane cap → Memory.ok t.plane cap

theorem EmitTo.frame_cfg {e : List Byte} {s t : State} (h : EmitTo e s t) : t.cfg = s.cfg := by rw [h.frame]

/-- Everything EMIT can do (44_data_codes.md R138). -/
theorem emit_emitTo (e : List Byte) (s : State) : EmitTo e s (emit e s).1 := by
  induction e generalizing s with
  | nil => exact ⟨rfl, by simp [emit], fun a => by rw [if_neg (by simp [emit])]; rfl, fun _ _ h => h⟩
  | cons b bs ih =>
    unfold emit
    split
    · rename_i hc
      have h := ih (stepCursor (planeWrite s.cursor.toNat b s))
      have hcur : (stepCursor (planeWrite s.cursor.toNat b s)).cursor.toNat = s.cursor.toNat + 1 := by
        simpa using toNat_succ_cursor s hc
      have hcan : canvas (stepCursor (planeWrite s.cursor.toNat b s)) = canvas s := rfl
      refine ⟨?_, ?_, ?_, ?_⟩
      · have := h.frame; simpa [stepCursor, planeWrite] using this
      · have := h.cursor; rw [hcur, hcan] at this; rw [this, List.length_cons]; omega
      · intro a
        have hw := h.written a
        have hq := h.cursor
        rw [hcur] at hw
        rw [hw]
        simp only [stepCursor_plane, planeWrite_plane, Memory.read_write]
        by_cases ha : a = s.cursor.toNat
        · subst ha
          rw [if_neg (by omega), if_pos rfl, if_pos (by rw [hcur] at hq; omega)]; simp
        · by_cases hr : s.cursor.toNat + 1 ≤ a ∧ a < (emit bs (stepCursor (planeWrite s.cursor.toNat b s))).1.cursor.toNat
          · rw [if_pos hr, if_pos (by omega)]
            obtain ⟨j, hj⟩ : ∃ j, a - s.cursor.toNat = j + 1 := ⟨a - s.cursor.toNat - 1, by omega⟩
            have : a - (s.cursor.toNat + 1) = j := by omega
            rw [this, hj, List.getElem?_cons_succ]
          · rw [if_neg hr, if_neg ha, if_neg (by omega)]
      · intro cap hcap hok
        exact h.wf cap hcap (Memory.write_ok _ _ _ _ hok (by omega))
    · rename_i hc
      exact ⟨rfl, by simp only; omega, fun a => by rw [if_neg (by simp only; omega)], fun _ _ h => h⟩

/-- EMIT reports success exactly when the whole sequence fits (44_data_codes.md R138). -/
theorem emit_fits (e : List Byte) (s : State) (h : s.cursor.toNat ≤ canvas s) :
    (emit e s).2 = true ↔ s.cursor.toNat + e.length ≤ canvas s := by
  induction e generalizing s with
  | nil => simp [emit, h]
  | cons b bs ih =>
    unfold emit
    split
    · rename_i hc
      have hcur : (stepCursor (planeWrite s.cursor.toNat b s)).cursor.toNat = s.cursor.toNat + 1 := by
        simpa using toNat_succ_cursor s hc
      have hcan : canvas (stepCursor (planeWrite s.cursor.toNat b s)) = canvas s := rfl
      rw [ih _ (by omega), hcur, hcan, List.length_cons]; omega
    · simp only [List.length_cons, Bool.false_eq_true, false_iff]; omega

end Sys2Proof.Machine
end

