-- ==== Sys2Proof/Laws/Code.lean ====
section
/-! SUPPORT. Everything a code's parts and a code's meaning can do: the fetch position, the preamble (fetch and
skip), GROW, the append, and EMIT with MARK; one inversion lemma for the six classes. -/

namespace Sys2Proof.Machine

/-! ### The fetch position -/

theorem bitPos_setBitPos (n : Nat) (s : State) (h : n < 34359738368) : bitPos (setBitPos n s) = n := by
  simp only [bitPos, setBitPos, BitVec.toNat_ofNat]
  omega

/-- Everything FETCH does to the state (41_fetch.md R102): it writes `BYTEPOS` and `BITOFF`. -/
theorem advance_eq (s : State) : advance s =
    { s with bytePos := BitVec.ofNat 32 ((bitPos s + s.codeSize.toNat) / 8),
             bitOff := BitVec.ofNat 3 ((bitPos s + s.codeSize.toNat) % 8) } := rfl

@[simp] theorem advance_params (s : State) : (advance s).params = s.params := rfl
@[simp] theorem advance_cfg (s : State) : (advance s).cfg = s.cfg := rfl
@[simp] theorem advance_status (s : State) : (advance s).status = s.status := rfl
@[simp] theorem advance_codeSize (s : State) : (advance s).codeSize = s.codeSize := rfl
@[simp] theorem advance_hasPrev (s : State) : (advance s).hasPrev = s.hasPrev := rfl
@[simp] theorem advance_prev (s : State) : (advance s).prev = s.prev := rfl
@[simp] theorem advance_cursor (s : State) : (advance s).cursor = s.cursor := rfl
@[simp] theorem advance_table (s : State) : (advance s).table = s.table := rfl
@[simp] theorem advance_input (s : State) : (advance s).input = s.input := rfl
@[simp] theorem advance_plane (s : State) : (advance s).plane = s.plane := rfl
@[simp] theorem advance_planeValid (s : State) : (advance s).planeValid = s.planeValid := rfl
@[simp] theorem advance_turns (s : State) : (advance s).turns = s.turns := rfl
@[simp] theorem advance_seen (s : State) : (advance s).seen = s.seen := rfl
@[simp] theorem advance_draws (s : State) : (advance s).draws = s.draws := rfl

/-- A fetch that stays inside IN moves `BITPOS` by the width (41_fetch.md R103). -/
theorem bitPos_advance (s : State) (h : bitPos s + s.codeSize.toNat ≤ 8 * s.cfg.inLen.toNat) :
    bitPos (advance s) = bitPos s + s.codeSize.toNat :=
  bitPos_setBitPos _ s (by have := s.cfg.inLen.isLt; omega)

/-! ### The preamble -/

theorem codePreamble_skipTo (s : State) : SkipTo (advance s) (codePreamble s) := skip_skipTo _

theorem codePreamble_eq (s : State) : codePreamble s =
    { advance s with cursor := (codePreamble s).cursor, plane := (codePreamble s).plane } :=
  (codePreamble_skipTo s).frame

@[simp] theorem codePreamble_params (s : State) : (codePreamble s).params = s.params := by rw [codePreamble_eq]; rfl
@[simp] theorem codePreamble_cfg (s : State) : (codePreamble s).cfg = s.cfg := by rw [codePreamble_eq]; rfl
@[simp] theorem codePreamble_status (s : State) : (codePreamble s).status = s.status := by rw [codePreamble_eq]; rfl
@[simp] theorem codePreamble_codeSize (s : State) : (codePreamble s).codeSize = s.codeSize := by rw [codePreamble_eq]; rfl
@[simp] theorem codePreamble_hasPrev (s : State) : (codePreamble s).hasPrev = s.hasPrev := by rw [codePreamble_eq]; rfl
@[simp] theorem codePreamble_prev (s : State) : (codePreamble s).prev = s.prev := by rw [codePreamble_eq]; rfl
@[simp] theorem codePreamble_table (s : State) : (codePreamble s).table = s.table := by rw [codePreamble_eq]; rfl
@[simp] theorem codePreamble_input (s : State) : (codePreamble s).input = s.input := by rw [codePreamble_eq]; rfl
@[simp] theorem codePreamble_planeValid (s : State) : (codePreamble s).planeValid = s.planeValid := by rw [codePreamble_eq]; rfl
@[simp] theorem codePreamble_turns (s : State) : (codePreamble s).turns = s.turns := by rw [codePreamble_eq]; rfl
@[simp] theorem codePreamble_seen (s : State) : (codePreamble s).seen = s.seen := by rw [codePreamble_eq]; rfl
@[simp] theorem codePreamble_draws (s : State) : (codePreamble s).draws = s.draws := by rw [codePreamble_eq]; rfl

theorem codePreamble_bitPos (s : State) : bitPos (codePreamble s) = bitPos (advance s) := by
  rw [codePreamble_eq]; rfl

@[simp] theorem codePreamble_canvas (s : State) : canvas (codePreamble s) = canvas s := by simp [canvas]

@[simp] theorem codePreamble_tlen (s : State) : tlen (codePreamble s) = tlen s := by simp [tlen]

@[simp] theorem codePreamble_entry (s : State) (i : Nat) : entry (codePreamble s) i = entry s i := by simp [entry]

@[simp] theorem codePreamble_firstOf (s : State) (i : Nat) : firstOf (codePreamble s) i = firstOf s i := by
  simp [firstOf]

/-- After the preamble the cursor is at the canvas end or inside the rectangle, and never past the canvas. -/
theorem codePreamble_cursor_le (s : State) (h : s.cursor.toNat ≤ canvas s) :
    (codePreamble s).cursor.toNat ≤ canvas s := by
  have := (codePreamble_skipTo s).bound
  have hc : (advance s).cursor = s.cursor := rfl
  have hv : canvas (advance s) = canvas s := rfl
  rw [hc, hv] at this; omega

theorem codePreamble_cursor_ge (s : State) : s.cursor.toNat ≤ (codePreamble s).cursor.toNat :=
  (codePreamble_skipTo s).le

/-! ### The table -/

theorem entry_append (e : List Byte) (s : State) (i : Nat) :
    entry (append e s) i = if i < tlen s then entry s i else if i = tlen s then some e else none := by
  have hl : tlen s = s.table.length := rfl
  simp only [entry, append_table]
  by_cases h : i < tlen s
  · rw [List.getElem?_append_left (by omega), if_pos h]
  · rw [List.getElem?_append_right (by omega), if_neg h]
    by_cases h' : i = tlen s
    · simp [h', hl]
    · rw [if_neg h']; simp; omega

theorem entry_lt {s : State} {i : Nat} {e : List Byte} (h : entry s i = some e) : i < tlen s :=
  (List.getElem?_eq_some_iff.1 h).1

theorem entry_of_lt (s : State) (i : Nat) (h : i < tlen s) : ∃ e, entry s i = some e :=
  ⟨s.table[i], List.getElem?_eq_getElem h⟩

theorem entry_mem {s : State} {i : Nat} {e : List Byte} (h : entry s i = some e) : e ∈ s.table :=
  List.mem_of_getElem? h

/-- GROW changes the width only (44_data_codes.md R136). -/
theorem grow_eq (s : State) : grow s = { s with codeSize := (grow s).codeSize } := by
  unfold grow; split <;> rfl

@[simp] theorem grow_table (s : State) : (grow s).table = s.table := by rw [grow_eq]
@[simp] theorem grow_cfg (s : State) : (grow s).cfg = s.cfg := by rw [grow_eq]
@[simp] theorem grow_params (s : State) : (grow s).params = s.params := by rw [grow_eq]
@[simp] theorem grow_status (s : State) : (grow s).status = s.status := by rw [grow_eq]
@[simp] theorem grow_hasPrev (s : State) : (grow s).hasPrev = s.hasPrev := by rw [grow_eq]
@[simp] theorem grow_prev (s : State) : (grow s).prev = s.prev := by rw [grow_eq]
@[simp] theorem grow_cursor (s : State) : (grow s).cursor = s.cursor := by rw [grow_eq]
@[simp] theorem grow_plane (s : State) : (grow s).plane = s.plane := by rw [grow_eq]
@[simp] theorem grow_entry (s : State) (i : Nat) : entry (grow s) i = entry s i := by simp [entry]
@[simp] theorem grow_canvas (s : State) : canvas (grow s) = canvas s := by simp [canvas]

/-- GROW's width (44_data_codes.md R136): one more exactly at the threshold, and never more than 12. -/
theorem grow_codeSize_toNat (s : State) : (grow s).codeSize.toNat =
    if tlen s = 2 ^ s.codeSize.toNat - s.params.growBias.val ∧ s.codeSize.toNat < maxCodeBits then
      s.codeSize.toNat + 1 else s.codeSize.toNat := by
  unfold grow
  split
  · have h : s.codeSize.toNat < 12 := by rename_i h; exact h.2
    simp only [BitVec.toNat_add, BitVec.toNat_ofNat]; omega
  · rfl

/-- What a data code adds to the table (44_data_codes.md R130, R137). -/
theorem learn_cases {k : Byte} {s t : State} (h : learn k s = some t) :
    (¬(s.hasPrev = true ∧ tlen s < tableCap) ∧ t = s) ∨
    (s.hasPrev = true ∧ tlen s < tableCap ∧ ∃ e, entry s s.prev.toNat = some e ∧ t = grow (append (e ++ [k]) s)) := by
  unfold learn at h
  split at h
  · rename_i hc
    obtain ⟨e, he, rfl⟩ := Option.map_eq_some_iff.1 h
    exact .inr ⟨hc.1, hc.2, e, he, rfl⟩
  · rename_i hc
    exact .inl ⟨hc, (Option.some.inj h).symm⟩

theorem learn_none {k : Byte} {s : State} (h : ¬(s.hasPrev = true ∧ tlen s < tableCap)) : learn k s = some s := by
  rw [learn, if_neg h]

theorem learn_some {k : Byte} {s : State} {e : List Byte} (h : s.hasPrev = true) (ht : tlen s < tableCap)
    (he : entry s s.prev.toNat = some e) : learn k s = some (grow (append (e ++ [k]) s)) := by
  rw [learn, if_pos ⟨h, ht⟩, he]; rfl

/-! ### EMIT and MARK -/

/-- A sequence that fits is written and its code becomes the previous one (44_data_codes.md R138, R139). -/
theorem emitAndMark_fits {e : List Byte} {s : State} (c : Code) (p : Nat) (h : s.cursor.toNat ≤ canvas s)
    (hf : s.cursor.toNat + e.length ≤ canvas s) : emitAndMark e c p s = mark c (emit e s).1 := by
  have := (emit_fits e s h).2 hf
  unfold emitAndMark
  split <;> simp_all

/-- A sequence that does not fit faults after the indices that did (44_data_codes.md R138, 60_exceptions.md
R160). -/
theorem emitAndMark_overruns {e : List Byte} {s : State} (c : Code) (p : Nat) (h : s.cursor.toNat ≤ canvas s)
    (hf : canvas s < s.cursor.toNat + e.length) :
    emitAndMark e c p s = raiseFault .decodeOverrun p (emit e s).1 := by
  have : (emit e s).2 ≠ true := fun hc => by have := (emit_fits e s h).1 hc; omega
  unfold emitAndMark
  split <;> simp_all

/-- EMIT with MARK ends in one of two ways, whatever the cursor. -/
theorem emitAndMark_cases (e : List Byte) (c : Code) (p : Nat) (s : State) :
    emitAndMark e c p s = mark c (emit e s).1 ∨ emitAndMark e c p s = raiseFault .decodeOverrun p (emit e s).1 := by
  unfold emitAndMark
  split
  · left; simp_all
  · right; simp_all

/-! ### The six classes -/

/-- Everything a code can do that answers a next state (41_fetch.md R100): rebuild, end, fault `BadCode`, or learn
and emit. -/
theorem exec_code_cases {i : Instr} {s t : State} (hi : isCode i = true) (h : exec i s = .next t) :
    t = rebuild (codePreamble s) ∨ t = endFrame .eoi (codePreamble s) ∨
    t = raiseFault .badCode (bitPos s) (codePreamble s) ∨
    ∃ k u e c, learn k (codePreamble s) = some u ∧ t = emitAndMark e c (bitPos s) u := by
  have emitEntry_next : ∀ {c : Code} {p : Nat} {u v : State}, emitEntry c p u = .next v →
      ∃ e, entry u c.toNat = some e ∧ v = emitAndMark e c p u := by
    intro c p u v hv
    unfold emitEntry at hv
    split at hv
    · cases hv
    · rename_i e he; cases hv; exact ⟨e, he, rfl⟩
  cases i with
  | clr => cases h; exact .inl rfl
  | eoi => cases h; exact .inr (.inl rfl)
  | bad c => cases h; exact .inr (.inr (.inl rfl))
  | lit c =>
    simp only [exec, execLit] at h
    split at h
    · cases h
    · rename_i u hu; cases h; exact .inr (.inr (.inr ⟨_, u, _, c, hu, rfl⟩))
  | ref c =>
    simp only [exec, execRef] at h
    split at h
    · cases h
    · split at h
      · cases h
      · rename_i u hu
        obtain ⟨e, -, rfl⟩ := emitEntry_next h
        exact .inr (.inr (.inr ⟨_, u, e, c, hu, rfl⟩))
  | kwk c =>
    simp only [exec, execKwk] at h
    split at h
    · cases h
    · split at h
      · cases h
      · rename_i u hu
        obtain ⟨e, -, rfl⟩ := emitEntry_next h
        exact .inr (.inr (.inr ⟨_, u, e, c, hu, rfl⟩))
  | start => cases hi
  | regwr n d => cases hi
  | regrd n => cases hi
  | inwr a v => cases hi
  | plrd a => cases hi

end Sys2Proof.Machine
end

