-- ==== Sys2Proof/Laws/Decode.lean ====
section
/-! SUPPORT. When a code has each class (30_encoding.md R74), one lemma per row, and the classes' exhaustion. -/

namespace Sys2Proof

theorem decodeCode_clr {x : CodeCtx} {c : Code} (h : c.toNat = x.maxIdx.toNat + 1) : decodeCode x c = .clr := by
  unfold decodeCode; exact if_pos h

theorem decodeCode_eoi {x : CodeCtx} {c : Code} (h : c.toNat = x.maxIdx.toNat + 2) : decodeCode x c = .eoi := by
  unfold decodeCode CodeCtx.clearCode CodeCtx.eoiCode
  rw [if_neg (by omega), if_pos h]

theorem decodeCode_lit {x : CodeCtx} {c : Code} (h : c.toNat ≤ x.maxIdx.toNat) : decodeCode x c = .lit c := by
  unfold decodeCode CodeCtx.clearCode CodeCtx.eoiCode
  rw [if_neg (by omega), if_neg (by omega), if_pos h]

theorem decodeCode_ref {x : CodeCtx} {c : Code} (h : x.maxIdx.toNat + 3 ≤ c.toNat) (h' : c.toNat < x.tlen) :
    decodeCode x c = .ref c := by
  unfold decodeCode CodeCtx.clearCode CodeCtx.eoiCode
  rw [if_neg (by omega), if_neg (by omega), if_neg (by omega), if_pos h']

theorem decodeCode_kwk {x : CodeCtx} {c : Code} (h : x.maxIdx.toNat + 3 ≤ c.toNat) (h' : c.toNat = x.tlen)
    (hp : x.hasPrev = true) : decodeCode x c = .kwk c := by
  have := c.isLt
  unfold decodeCode CodeCtx.clearCode CodeCtx.eoiCode
  rw [if_neg (by omega), if_neg (by omega), if_neg (by omega), if_neg (by omega),
    if_pos ⟨h', hp, show x.tlen < 4096 by omega⟩]

theorem decodeCode_bad {x : CodeCtx} {c : Code} (h : x.maxIdx.toNat + 3 ≤ c.toNat)
    (h' : x.tlen < c.toNat ∨ (c.toNat = x.tlen ∧ x.hasPrev = false)) : decodeCode x c = .bad c := by
  have hn : ¬(c.toNat = x.tlen ∧ x.hasPrev = true ∧ x.tlen < tableCap) := by
    rintro ⟨h1, h2, -⟩
    rcases h' with h' | ⟨-, h'⟩
    · omega
    · rw [h2] at h'; cases h'
  unfold decodeCode CodeCtx.clearCode CodeCtx.eoiCode
  rw [if_neg (by omega), if_neg (by omega), if_neg (by omega), if_neg (by omega), if_neg hn]

/-- The six cases of a code value in a context (30_encoding.md R74, R75). -/
theorem code_cases (x : CodeCtx) (c : Code) :
    c.toNat = x.maxIdx.toNat + 1 ∨ c.toNat = x.maxIdx.toNat + 2 ∨ c.toNat ≤ x.maxIdx.toNat ∨
    (x.maxIdx.toNat + 3 ≤ c.toNat ∧ c.toNat < x.tlen) ∨
    (x.maxIdx.toNat + 3 ≤ c.toNat ∧ c.toNat = x.tlen ∧ x.hasPrev = true) ∨
    (x.maxIdx.toNat + 3 ≤ c.toNat ∧ (x.tlen < c.toNat ∨ (c.toNat = x.tlen ∧ x.hasPrev = false))) := by
  cases x.hasPrev <;> simp <;> omega

end Sys2Proof
end

