-- ==== Sys2Proof/Laws/Fetch.lean ====
section
/-! SUPPORT. The bits of a fetched code (20_memory.md R55, 30_encoding.md R71, 41_fetch.md R102). -/

namespace Sys2Proof

theorem extractCode_succ (read : Nat → Option Byte) (p j v : Nat) :
    extractCode read p (j + 1) = some v ↔
      ∃ c b, extractCode read p j = some c ∧ streamBit read (p + j) = some b ∧ v = c + b.toNat * 2 ^ j := by
  rw [extractCode]
  constructor
  · intro h
    split at h
    · rename_i c b hc hb; exact ⟨c, b, hc, hb, (Option.some.inj h).symm⟩
    · cases h
  · rintro ⟨c, b, hc, hb, rfl⟩
    rw [hc, hb]

/-- A `w`-bit code is below `2^w` (30_encoding.md R71). -/
theorem extractCode_lt {read : Nat → Option Byte} {p w c : Nat} (h : extractCode read p w = some c) : c < 2 ^ w := by
  induction w generalizing c with
  | zero => cases h; simp
  | succ j ih =>
    obtain ⟨c', b, hc, -, rfl⟩ := (extractCode_succ ..).1 h
    have := ih hc
    have hb : b.toNat ≤ 1 := Bool.toNat_le b
    have : b.toNat * 2 ^ j ≤ 1 * 2 ^ j := Nat.mul_le_mul_right _ hb
    rw [Nat.pow_succ]; omega

/-- Bit `j` of a code is stream bit `p + j` (20_memory.md R55). -/
theorem extractCode_testBit {read : Nat → Option Byte} {p w c : Nat} (h : extractCode read p w = some c) (j : Nat)
    (hj : j < w) : streamBit read (p + j) = some (c.testBit j) := by
  induction w generalizing c with
  | zero => omega
  | succ n ih =>
    obtain ⟨c', b, hc, hb, rfl⟩ := (extractCode_succ ..).1 h
    have hlt := extractCode_lt hc
    rw [Nat.add_comm c', Nat.mul_comm, Nat.testBit_two_pow_mul_add _ hlt]
    by_cases hjn : j < n
    · rw [if_pos hjn]; exact ih hc hjn
    · have : j = n := by omega
      subst this
      rw [if_neg hjn, Nat.sub_self, hb]
      cases b <;> rfl

/-- A code is determined by its stream bits. -/
theorem extractCode_of_bits (read : Nat → Option Byte) (p w c : Nat) (hc : c < 2 ^ w)
    (h : ∀ j, j < w → streamBit read (p + j) = some (c.testBit j)) : extractCode read p w = some c := by
  induction w generalizing c with
  | zero => rw [extractCode]; simp at hc; simp [hc]
  | succ n ih =>
    have hmod : c % 2 ^ n < 2 ^ n := Nat.mod_lt _ (Nat.two_pow_pos n)
    refine (extractCode_succ ..).2 ⟨c % 2 ^ n, c.testBit n, ih _ hmod ?_, h n (by omega), ?_⟩
    · intro j hj
      rw [h j (by omega), Nat.testBit_mod_two_pow]; simp [hj]
    · have hd : c / 2 ^ n < 2 := Nat.div_lt_of_lt_mul (by rw [Nat.pow_succ] at hc; exact hc)
      have hb : (c.testBit n).toNat = c / 2 ^ n := by
        rw [Nat.testBit_eq_decide_div_mod_eq, Nat.mod_eq_of_lt hd]
        have hq : ∀ q, q < 2 → q = 0 ∨ q = 1 := by omega
        rcases hq _ hd with h | h <;> rw [h] <;> rfl
      rw [hb, Nat.mul_comm]
      exact (Nat.mod_add_div c (2 ^ n)).symm

/-- A code reads the bytes its bits lie in and no other (41_fetch.md R102). -/
theorem extractCode_congr {read read' : Nat → Option Byte} {p w : Nat}
    (h : ∀ j, j < w → read ((p + j) / 8) = read' ((p + j) / 8)) : extractCode read p w = extractCode read' p w := by
  induction w with
  | zero => rfl
  | succ n ih =>
    rw [extractCode, extractCode, ih fun j hj => h j (by omega)]
    have : streamBit read (p + n) = streamBit read' (p + n) := by
      unfold streamBit; rw [h n (by omega)]
    rw [this]

/-- A code whose bytes all have a value has one. -/
theorem extractCode_isSome {read : Nat → Option Byte} {p w : Nat}
    (h : ∀ j, j < w → (read ((p + j) / 8)).isSome = true) : ∃ c, extractCode read p w = some c := by
  induction w with
  | zero => exact ⟨0, rfl⟩
  | succ n ih =>
    obtain ⟨c, hc⟩ := ih fun j hj => h j (by omega)
    obtain ⟨b, hb⟩ := Option.isSome_iff_exists.1 (h n (by omega))
    refine ⟨_, (extractCode_succ ..).2 ⟨c, b.getLsbD ((p + n) % 8), hc, ?_, rfl⟩⟩
    unfold streamBit; rw [hb]; rfl

namespace Machine

/-- What a fetch can find (41_fetch.md R101, R102). -/
theorem fetch_cases (s : State) :
    (exhausted s = true ∧ fetch s = .exhausted) ∨
    (exhausted s = false ∧ extractCode (Memory.read s.input) (bitPos s) s.codeSize.toNat = none ∧
      fetch s = .unwritten) ∨
    (exhausted s = false ∧ ∃ c, extractCode (Memory.read s.input) (bitPos s) s.codeSize.toNat = some c ∧
      fetch s = .code (BitVec.ofNat 12 c)) := by
  unfold fetch
  by_cases h : exhausted s = true
  · exact .inl ⟨h, by rw [if_pos h]⟩
  · rw [if_neg h]
    have h' : exhausted s = false := by simpa using h
    cases hx : extractCode (Memory.read s.input) (bitPos s) s.codeSize.toNat with
    | none => exact .inr (.inl ⟨h', rfl, rfl⟩)
    | some c => exact .inr (.inr ⟨h', c, rfl, rfl⟩)

theorem exhausted_iff (s : State) : exhausted s = true ↔ 8 * s.cfg.inLen.toNat < bitPos s + s.codeSize.toNat := by
  simp [exhausted]

theorem fits_of_not_exhausted {s : State} (h : exhausted s = false) :
    bitPos s + s.codeSize.toNat ≤ 8 * s.cfg.inLen.toNat := by
  simp [exhausted] at h; omega

end Machine

end Sys2Proof
end

