-- ==== Sys2Proof/Laws/Step.lean ====
section
/-! SUPPORT. Everything one step can do, said once: the decoder's turn, the host's access, hardware reset. -/

namespace Sys2Proof.Machine

/-- The schedule does not matter to a fetch or to a code's class. -/
@[simp] theorem fetch_turns (s : State) (ts : List Turn) : fetch { s with turns := ts } = fetch s := rfl

@[simp] theorem codeCtx_turns (s : State) (ts : List Turn) : codeCtx { s with turns := ts } = codeCtx s := rfl

/-- A decoder's step is the decoder's turn on the state without the turn taken. -/
theorem step_decoder {s : State} (h : DecoderNext s) : step s = decoderTurn { s with turns := s.turns.tail } := by
  rcases h with h | ⟨ts, h⟩
  · have : { s with turns := s.turns.tail } = s := by cases s; simp only at h; subst h; rfl
    rw [this]; unfold step; rw [h]
  · unfold step; rw [h]; rfl

/-- The decoder's turn while `BUSY` (41_fetch.md R100). -/
theorem decoderTurn_busy {s : State} (h : s.status.run = .busy) : decoderTurn s =
    match fetch s with
    | .exhausted => .next (exhaustedInput s)
    | .unwritten => .refused .unwrittenInput
    | .code c => exec (decodeCode (codeCtx s) c) s := by
  unfold decoderTurn
  exact (if_pos h).trans (by cases fetch s <;> rfl)

/-- When not `BUSY` the decoder has no step (41_fetch.md R100). -/
theorem decoderTurn_not_busy {s : State} (h : s.status.run ≠ .busy) : decoderTurn s = .next s := by
  unfold decoderTurn; rw [if_neg h]

/-- A decoder's step while `BUSY`, with the schedule's turn taken off (41_fetch.md R100, R101). -/
theorem step_busy {s : State} (hd : DecoderNext s) (h : s.status.run = .busy) : step s =
    match fetch s with
    | .exhausted => .next (exhaustedInput { s with turns := s.turns.tail })
    | .unwritten => .refused .unwrittenInput
    | .code c => exec (decodeCode (codeCtx s) c) { s with turns := s.turns.tail } := by
  rw [step_decoder hd, decoderTurn_busy (s := { s with turns := s.turns.tail }) h, fetch_turns]
  cases fetch s <;> rfl

/-- Every class of a code is a code (30_encoding.md R74). -/
theorem isCode_decodeCode (x : CodeCtx) (c : Code) : isCode (decodeCode x c) = true := by
  unfold decodeCode; repeat (first | rfl | split)

/-- What the decoder's turn can do when it answers a next state. -/
theorem decoderTurn_cases {s t : State} (h : decoderTurn s = .next t) :
    (s.status.run ≠ .busy ∧ t = s) ∨
    (s.status.run = .busy ∧ exhausted s = true ∧ t = exhaustedInput s) ∨
    (s.status.run = .busy ∧ exhausted s = false ∧ ∃ c, fetch s = .code c ∧
      exec (decodeCode (codeCtx s) c) s = .next t) := by
  by_cases hb : s.status.run = .busy
  · rw [decoderTurn_busy hb] at h
    rcases fetch_cases s with ⟨he, hf⟩ | ⟨-, -, hf⟩ | ⟨he, c, -, hf⟩ <;> rw [hf] at h
    · cases h; exact .inr (.inl ⟨hb, he, rfl⟩)
    · cases h
    · exact .inr (.inr ⟨hb, he, _, hf, h⟩)
  · rw [decoderTurn_not_busy hb] at h
    cases h; exact .inl ⟨hb, rfl⟩

/-- What a step can do when it answers a next state. -/
theorem step_cases {s t : State} (h : step s = .next t) :
    (DecoderNext s ∧ decoderTurn { s with turns := s.turns.tail } = .next t) ∨
    (∃ a ts, s.turns = .host a :: ts ∧ exec (decodeAccess a) { s with turns := ts } = .next t) ∨
    (∃ ts, s.turns = .reset :: ts ∧ t = hardwareReset { s with turns := ts }) := by
  cases hts : s.turns with
  | nil => exact .inl ⟨.inl hts, by rw [← hts, ← step_decoder (.inl hts)]; exact h⟩
  | cons u ts =>
    cases u with
    | decoder => exact .inl ⟨.inr ⟨ts, hts⟩, by rw [← hts, ← step_decoder (.inr ⟨ts, hts⟩)]; exact h⟩
    | host a => exact .inr (.inl ⟨a, ts, rfl, by unfold step at h; rw [hts] at h; exact h⟩)
    | reset => unfold step at h; rw [hts] at h; cases h; exact .inr (.inr ⟨ts, rfl, rfl⟩)

/-- A run whose first step answers a next state goes on from it. -/
theorem run_succ {s t : State} (h : step s = .next t) (k : Nat) : core.run (k + 1) s = core.run k t := by
  have h' : core.step s = .next t := h
  simp [Host.Core.run, h']

/-- A run that answers a next state took a first step that did. -/
theorem run_next {s u : State} {k : Nat} (h : core.run (k + 1) s = .next u) :
    ∃ t, step s = .next t ∧ core.run k t = .next u := by
  cases hs : core.step s with
  | next t => exact ⟨t, hs, by rwa [run_succ hs] at h⟩
  | fault r => simp [Host.Core.run, hs] at h
  | refused r => simp [Host.Core.run, hs] at h

/-- What START can do when not `BUSY` and it answers a next state (40_host_commands.md R92). -/
theorem startFrame_cases {s t : State} (h : startFrame s = .next t) :
    (badParams s = true ∧ t = failStart (clearResults s)) ∨
    (badParams s = false ∧ Memory.covers s.input s.cfg.inLen.toNat = true ∧ t = launch (clearResults s)) := by
  unfold startFrame at h
  split at h
  · cases h; exact .inl ⟨‹_›, rfl⟩
  · split at h
    · cases h; exact .inr ⟨by simp_all, ‹_›, rfl⟩
    · cases h

/-- What a host operation can do when it answers a next state (40_host_commands.md R90 to R94): nothing, START, a
register store, a value returned, a byte of IN. -/
theorem exec_host_cases {i : Instr} {s t : State} (hi : isCode i = false) (h : exec i s = .next t) :
    t = s ∨
    (s.status.run ≠ .busy ∧ (i = .start ∨ ∃ d : Word, i = .regwr 0#4 d ∧ d.getLsbD 0 = true) ∧
      startFrame s = .next t) ∨
    (s.status.run ≠ .busy ∧ ∃ n d, i = .regwr n d ∧ n ≠ 0#4 ∧ t = regWrite n d s) ∨
    (((∃ n, i = .regrd n) ∨ ∃ a, i = .plrd a) ∧ ∃ v d, t = { s with seen := v :: s.seen, draws := d }) ∨
    (s.status.run ≠ .busy ∧ ∃ (a : Addr) (v : Byte), i = .inwr a v ∧ a.toNat < s.params.inCap ∧
      t = { s with input := Memory.write s.input a.toNat v }) := by
  cases i with
  | clr => cases hi
  | eoi => cases hi
  | lit c => cases hi
  | ref c => cases hi
  | kwk c => cases hi
  | bad c => cases hi
  | start =>
    simp only [exec, execStart] at h
    split at h
    · cases h; exact .inl rfl
    · exact .inr (.inl ⟨‹_›, .inl rfl, h⟩)
  | regwr n d =>
    simp only [exec, execRegwr] at h
    split at h
    · cases h; exact .inl rfl
    · split at h
      · subst_vars
        split at h
        · exact .inr (.inl ⟨‹_›, .inr ⟨d, rfl, ‹_›⟩, h⟩)
        · cases h; exact .inl rfl
      · cases h; exact .inr (.inr (.inl ⟨‹_›, n, d, rfl, ‹_›, rfl⟩))
  | regrd n => cases h; exact .inr (.inr (.inr (.inl ⟨.inl ⟨n, rfl⟩, _, _, rfl⟩)))
  | inwr a v =>
    simp only [exec, execInwr] at h
    split at h
    · cases h
    · split at h
      · cases h
      · cases h; exact .inr (.inr (.inr (.inr ⟨‹_›, a, v, rfl, by omega, rfl⟩)))
  | plrd a =>
    simp only [exec, execPlrd] at h
    split at h <;> cases h <;> exact .inr (.inr (.inr (.inl ⟨.inr ⟨a, rfl⟩, _, _, rfl⟩)))

/-- Every host access is a host operation (30_encoding.md R76). -/
theorem isCode_decodeAccess (a : Access) : isCode (decodeAccess a) = false := by
  cases a with
  | regWrite n d => simp only [decodeAccess]; split <;> rfl
  | regRead n => rfl
  | inWrite a v => rfl
  | planeRead a => rfl

end Sys2Proof.Machine
end

