-- ==== Sys2Proof/Laws/Invariant.lean ====
section
/-! SUPPORT. What each part of a step keeps of the invariant of Safety.lean, for a proof that puts the parts
together. -/

namespace Sys2Proof.Machine

/-! ### Frames of the parts -/

/-- EMIT changes the cursor and the plane only (44_data_codes.md R138). -/
theorem emit_eq (e : List Byte) (s : State) :
    (emit e s).1 = { s with cursor := (emit e s).1.cursor, plane := (emit e s).1.plane } :=
  (emit_emitTo e s).frame

/-- What a data code adds changes the table and the width only (44_data_codes.md R130, R136). -/
theorem learn_eq {k : Byte} {s t : State} (h : learn k s = some t) :
    t = { s with table := t.table, codeSize := t.codeSize } := by
  rcases learn_cases h with ⟨-, rfl⟩ | ⟨-, -, e, -, rfl⟩
  · rfl
  · rw [grow_eq]; rfl

/-- A register write changes the configuration, and may end the claim on the plane, only (40_host_commands.md R91). -/
theorem regWrite_keeps (n : RegNum) (d : Word) (s : State) :
    regWrite n d s = { s with cfg := (regWrite n d s).cfg, planeValid := (regWrite n d s).planeValid } := by
  unfold regWrite; split <;> rfl

/-! ### The plane -/

/-- Every plane byte of the frame has a value (40_host_commands.md R92 step 3). -/
def PlaneSome (s : State) : Prop := ∀ a, a < canvas s → (Memory.read s.plane a).isSome = true

/-- The preamble keeps the plane in its form and every byte of the frame written. -/
theorem pre_plane (s : State) (cap : Nat) (hc : canvas s ≤ cap) (hp : Memory.ok s.plane cap) (hs : PlaneSome s) :
    Memory.ok (codePreamble s).plane cap ∧ PlaneSome (codePreamble s) := by
  have h := codePreamble_skipTo s
  refine ⟨h.wf cap hc hp, fun a ha => ?_⟩
  rw [codePreamble_canvas] at ha
  rw [h.painted a]; split
  · rfl
  · exact hs a ha

/-- EMIT keeps the plane in its form and every byte of the frame written. -/
theorem emit_plane (e : List Byte) (s : State) (cap : Nat) (hc : canvas s ≤ cap)
    (hp : Memory.ok s.plane cap) (hs : PlaneSome s) :
    Memory.ok (emit e s).1.plane cap ∧ PlaneSome (emit e s).1 := by
  have h := emit_emitTo e s
  have hcan : canvas (emit e s).1 = canvas s := by simp [canvas, h.frame_cfg]
  refine ⟨h.wf cap hc hp, fun a ha => ?_⟩
  rw [hcan] at ha
  rw [h.written a]; split
  · have := h.cursor
    rw [List.getElem?_eq_getElem (by omega)]; rfl
  · exact hs a ha

/-! ### The table -/

/-- The initial table (10_state.md R40). -/
theorem initial_ok (m : Byte) : (initialTable m).length = m.toNat + 3 ∧
    (∀ i, i ≤ m.toNat → (initialTable m)[i]? = some [BitVec.ofNat 8 i]) ∧
    (initialTable m)[m.toNat + 1]? = some [] ∧ (initialTable m)[m.toNat + 2]? = some [] := by
  refine ⟨by simp [initialTable], fun i hi => ?_, ?_, ?_⟩
  · unfold initialTable
    rw [List.getElem?_append_left (by simp; omega), List.getElem?_map, List.getElem?_range (by omega)]; rfl
  · unfold initialTable; rw [List.getElem?_append_right (by simp)]; simp
  · unfold initialTable; rw [List.getElem?_append_right (by simp)]; simp

/-- Every index of the initial table is a literal value (10_state.md R43 (g)). -/
theorem initial_elements (m : Byte) : ∀ e ∈ initialTable m, ∀ b ∈ e, b.toNat ≤ m.toNat := by
  intro e he b hb
  have hx := m.isLt
  unfold initialTable at he
  rcases List.mem_append.1 he with he | he
  · obtain ⟨i, hi, rfl⟩ := List.mem_map.1 he
    have := List.mem_range.1 hi
    simp only [List.mem_singleton] at hb; subst hb
    simp; omega
  · simp at he; subst he; cases hb

/-- An append keeps what the slots hold (10_state.md R40, R43; 44_data_codes.md R135). -/
theorem tableInv_append (s : State) (k : Byte) (e : List Byte) (hT : TableInv s) (hcap : tlen s < tableCap)
    (hpr : entry s s.prev.toNat = some e)
    (hn1 : s.prev.toNat ≠ s.cfg.maxIdx.toNat + 1) (hn2 : s.prev.toNat ≠ s.cfg.maxIdx.toNat + 2)
    (hk : k.toNat ≤ s.cfg.maxIdx.toNat) : TableInv (grow (append (e ++ [k]) s)) := by
  have hlt := entry_lt hpr
  have htl : tlen (grow (append (e ++ [k]) s)) = tlen s + 1 := by simp [tlen]
  have hen : ∀ i, i < tlen s → entry (grow (append (e ++ [k]) s)) i = entry s i := by
    intro i hi; rw [grow_entry, entry_append, if_pos hi]
  have hl := hT.length_ok
  have hcf : (grow (append (e ++ [k]) s)).cfg = s.cfg := by simp
  have he1 : 1 ≤ e.length ∧
      (s.cfg.maxIdx.toNat + 3 ≤ s.prev.toNat → e.length + s.cfg.maxIdx.toNat + 1 ≤ s.prev.toNat) ∧
      (s.prev.toNat ≤ s.cfg.maxIdx.toNat → e.length = 1) := by
    by_cases h : s.prev.toNat ≤ s.cfg.maxIdx.toNat
    · rw [hT.literals _ h] at hpr; cases hpr; exact ⟨by simp, fun _ => by omega, fun _ => rfl⟩
    · have := hT.grown _ _ (by omega) hpr
      exact ⟨by omega, fun _ => this.2, fun _ => by omega⟩
  refine ⟨?_, ?_, ?_, ?_, ?_⟩
  · rw [htl, hcf]; omega
  · intro i hi; rw [hcf] at hi; rw [hen i (by omega)]; exact hT.literals i hi
  · rw [hcf, hen _ (by omega), hen _ (by omega)]; exact hT.sentinels
  · intro i f hi hf
    rw [hcf] at hi ⊢
    have hlt' := entry_lt hf
    rw [htl] at hlt'
    by_cases h : i < tlen s
    · rw [hen i h] at hf; exact hT.grown i f hi hf
    · have : i = tlen s := by omega
      subst this
      rw [grow_entry, entry_append, if_neg (by omega), if_pos rfl] at hf
      cases hf
      rw [List.length_append, List.length_singleton]
      omega
  · rw [hcf]
    intro f hf b hb
    rw [grow_table, append_table, List.mem_append] at hf
    rcases hf with hf | hf
    · exact hT.elements f hf b hb
    · simp only [List.mem_singleton] at hf; subst hf
      rcases List.mem_append.1 hb with hb | hb
      · exact hT.elements e (entry_mem hpr) b hb
      · simp only [List.mem_singleton] at hb; subst hb; exact hk

/-- Every slot but the two placeholders has a first index, and it is a literal value (10_state.md R40, R43). -/
theorem first_ok {s : State} (hT : TableInv s) {i : Nat} (hi : i < tlen s)
    (h1 : i ≠ s.cfg.maxIdx.toNat + 1) (h2 : i ≠ s.cfg.maxIdx.toNat + 2) :
    ∃ k, firstOf s i = some k ∧ k.toNat ≤ s.cfg.maxIdx.toNat := by
  obtain ⟨e, he⟩ := entry_of_lt s i hi
  have hne : e ≠ [] := by
    by_cases hle : i ≤ s.cfg.maxIdx.toNat
    · rw [hT.literals i hle] at he; cases he; simp
    · have := (hT.grown i e (by omega) he).1
      intro h0; rw [h0] at this; simp at this
  obtain ⟨b, bs, rfl⟩ := List.exists_cons_of_ne_nil hne
  exact ⟨b, by simp [firstOf, he], hT.elements _ (entry_mem he) b (by simp)⟩

/-! ### What holds while `BUSY` -/

/-- Fetch and skip keep what holds while `BUSY` (10_state.md R43). -/
theorem busy_pre (s : State) (hB : BusyInv s) (hf : bitPos s + s.codeSize.toNat ≤ 8 * s.cfg.inLen.toNat) :
    BusyInv (codePreamble s) := by
  have hT := hB.table_ok
  refine ⟨by simpa using hB.minCode_ok, by simpa using hB.width_ok, ?_, ?_, ?_, ?_, ?_, ?_, ?_, ?_, ?_⟩
  · exact ⟨by simpa using hT.length_ok, by simpa using hT.literals, by simpa using hT.sentinels,
      by simpa using hT.grown, by simpa using hT.elements⟩
  · simpa using hB.prev_ok
  · simpa using hB.fresh_ok
  · rw [codePreamble_canvas]; exact codePreamble_cursor_le s hB.cursor_ok
  · rw [codePreamble_bitPos, bitPos_advance s hf]; simpa using hf
  · simpa using hB.canvas_fits
  · simpa using hB.input_fits
  · simpa using hB.input_written
  · simpa using hB.plane_zeroed

/-- What a data code adds keeps what holds while `BUSY` (10_state.md R43). -/
theorem busy_learn {s u : State} {k : Byte} (hB : BusyInv s) (hl : learn k s = some u)
    (hk : k.toNat ≤ s.cfg.maxIdx.toNat) : BusyInv u := by
  rcases learn_cases hl with ⟨-, rfl⟩ | ⟨hp, ht, e, he, rfl⟩
  · exact hB
  · obtain ⟨h1, h2, h3⟩ := hB.prev_ok hp
    have hT := tableInv_append s k e hB.table_ok ht he h2 h3 hk
    have htl : tlen (grow (append (e ++ [k]) s)) = tlen s + 1 := by simp [tlen]
    have hw := grow_codeSize_toNat (append (e ++ [k]) s)
    have hw0 := hB.width_ok
    refine ⟨by simpa using hB.minCode_ok, ?_, hT, ?_, ?_, ?_, ?_, ?_, ?_, ?_, ?_⟩
    · have hcf : (grow (append (e ++ [k]) s)).cfg = s.cfg := by simp
      have hcs : (append (e ++ [k]) s).codeSize = s.codeSize := rfl
      rw [hcf, hw, hcs]
      have h12 : maxCodeBits = 12 := rfl
      rw [h12] at *
      by_cases hg : tlen (append (e ++ [k]) s) =
          2 ^ s.codeSize.toNat - (append (e ++ [k]) s).params.growBias.val ∧ s.codeSize.toNat < 12
      · rw [if_pos hg]; have := hg.2; omega
      · rw [if_neg hg]; omega
    · intro _; rw [htl]; simp only [grow_prev, append_prev, grow_cfg, append_cfg]; exact ⟨by omega, h2, h3⟩
    · intro h; simp [hp] at h
    · simpa [canvas] using hB.cursor_ok
    · have : bitPos (grow (append (e ++ [k]) s)) = bitPos s := by rw [grow_eq]; rfl
      rw [this]; simpa using hB.bitPos_ok
    · simpa [canvas] using hB.canvas_fits
    · simpa using hB.input_fits
    · have h9 := hB.input_written
      rw [grow_eq]; exact h9
    · rw [grow_eq]; exact hB.plane_zeroed

/-- EMIT and MARK of a code in the table keep what holds while `BUSY` (10_state.md R43). -/
theorem busy_mark {s : State} {e : List Byte} {c : Code} (hB : BusyInv s)
    (hc : c.toNat < tlen s) (h1 : c.toNat ≠ s.cfg.maxIdx.toNat + 1) (h2 : c.toNat ≠ s.cfg.maxIdx.toNat + 2) :
    BusyInv (mark c (emit e s).1) := by
  have hem := emit_emitTo e s
  have hcu := hem.cursor
  have h0 := hB.cursor_ok
  rw [emit_eq e s]
  have hT := hB.table_ok
  refine ⟨hB.minCode_ok, hB.width_ok, ⟨hT.length_ok, hT.literals, hT.sentinels, hT.grown, hT.elements⟩,
    fun _ => ⟨hc, h1, h2⟩, fun h => (by cases h), ?_, hB.bitPos_ok, hB.canvas_fits, hB.input_fits, hB.input_written,
    hB.plane_zeroed⟩
  show (emit e s).1.cursor.toNat ≤ canvas s
  rw [hcu]; omega

/-- Rebuilding the initial table keeps what holds while `BUSY` (10_state.md R43). -/
theorem busy_rebuild {s : State} (hB : BusyInv s) : BusyInv (rebuild s) := by
  obtain ⟨hl, hlit, hs1, hs2⟩ := initial_ok s.cfg.maxIdx
  have hm := hB.minCode_ok
  have hw : (BitVec.ofNat 4 (s.cfg.minCode.toNat + 1)).toNat = s.cfg.minCode.toNat + 1 := by simp; omega
  have hx := s.cfg.maxIdx.isLt
  have hel := initial_elements s.cfg.maxIdx
  refine ⟨hm, ?_, ⟨?_, hlit, ⟨hs1, hs2⟩, ?_, hel⟩, fun h => (by cases h),
    fun _ => ⟨hl, hw⟩, hB.cursor_ok, hB.bitPos_ok, hB.canvas_fits, hB.input_fits, hB.input_written,
    hB.plane_zeroed⟩
  · show s.cfg.minCode.toNat + 1 ≤ (BitVec.ofNat 4 (s.cfg.minCode.toNat + 1)).toNat ∧ _ ≤ 12
    rw [hw]; change _ ∧ (BitVec.ofNat 4 (s.cfg.minCode.toNat + 1)).toNat ≤ 12; rw [hw]; omega
  · show s.cfg.maxIdx.toNat + 3 ≤ (initialTable s.cfg.maxIdx).length ∧ (initialTable s.cfg.maxIdx).length ≤ 4096
    omega
  · intro i e hi he
    have := (List.getElem?_eq_some_iff.1 (show (initialTable s.cfg.maxIdx)[i]? = some e from he)).1
    exact absurd this (by rw [hl]; exact Nat.not_lt.2 hi)

/-- While `BUSY` a data code always finds its previous entry (10_state.md R43 (c)). -/
theorem learn_total {s : State} (hB : BusyInv s) (k : Byte) : ∃ u, learn k s = some u := by
  by_cases h : s.hasPrev = true ∧ tlen s < tableCap
  · obtain ⟨e, he⟩ := entry_of_lt s _ (hB.prev_ok h.1).1
    exact ⟨_, learn_some h.1 h.2 he⟩
  · exact ⟨s, learn_none h⟩

/-- What a data code adds leaves the slots in use as they were, and may add one (44_data_codes.md R135). -/
theorem learn_tlen {s u : State} {k : Byte} (h : learn k s = some u) :
    tlen s ≤ tlen u ∧ (∀ i, i < tlen s → entry u i = entry s i) ∧
      ((s.hasPrev = true ∧ tlen s < tableCap) → tlen u = tlen s + 1) := by
  rcases learn_cases h with ⟨hn, rfl⟩ | ⟨hp, ht, e, he, rfl⟩
  · exact ⟨Nat.le_refl _, fun _ _ => rfl, fun h => absurd h hn⟩
  · have htl : tlen (grow (append (e ++ [k]) s)) = tlen s + 1 := by simp [tlen]
    exact ⟨by omega, fun i hi => by rw [grow_entry, entry_append, if_pos hi], fun _ => htl⟩

/-- While `BUSY` no end and no fault is recorded (10_state.md R23, R24). -/
theorem status_busy {s : State} (hi : Inv s) (hb : s.status.run = .busy) :
    s.status.eoi = false ∧ s.status.trunc = false ∧ s.status.cause = .none ∧
      s.status.fbyte = 0#32 ∧ s.status.fbit = 0#3 := by
  obtain ⟨h1, h2, h3, h4⟩ := hi.status_ok
  have hc : s.status.cause = .none := by
    by_contra h; have := h3.2 h; rw [hb] at this; cases this
  exact ⟨(h2 (by rw [hb]; simp)).1, (h2 (by rw [hb]; simp)).2, hc, h4 (.inl hc)⟩

/-- The four ways a code ends in a state of a frame decode (30_encoding.md R74, 44_data_codes.md R130). -/
theorem code_result (s : State) (c : Code) (hB : BusyInv s) (hf : bitPos s + s.codeSize.toNat ≤ 8 * s.cfg.inLen.toNat) :
    exec (decodeCode (codeCtx s) c) s = .next (rebuild (codePreamble s)) ∨
    exec (decodeCode (codeCtx s) c) s = .next (endFrame .eoi (codePreamble s)) ∨
    exec (decodeCode (codeCtx s) c) s = .next (raiseFault .badCode (bitPos s) (codePreamble s)) ∨
    ∃ u e k, exec (decodeCode (codeCtx s) c) s = .next (emitAndMark e c (bitPos s) u) ∧ BusyInv u ∧
      learn k (codePreamble s) = some u ∧ entry u c.toNat = some e ∧ e.head? = some k ∧
      c.toNat ≠ s.cfg.maxIdx.toNat + 1 ∧ c.toNat ≠ s.cfg.maxIdx.toNat + 2 := by
  have hP := busy_pre s hB hf
  have hT := hP.table_ok
  have hlen := hT.length_ok
  have hcf : (codePreamble s).cfg = s.cfg := codePreamble_cfg s
  have htl : tlen (codePreamble s) = tlen s := codePreamble_tlen s
  have hcl := c.isLt
  rw [hcf, htl] at hlen
  rcases code_cases (codeCtx s) c with h0 | h0 | h0 | ⟨h0, h3⟩ | ⟨h0, h3, h4⟩ | ⟨h0, h3⟩
  · left; rw [decodeCode_clr h0]; rfl
  · right; left; rw [decodeCode_eoi h0]; rfl
  · right; right; right
    have h0' : c.toNat ≤ s.cfg.maxIdx.toNat := h0
    obtain ⟨u, hu⟩ := learn_total hP (BitVec.setWidth 8 c)
    have hk : (BitVec.setWidth 8 c).toNat ≤ (codePreamble s).cfg.maxIdx.toNat := by
      rw [hcf]; have := s.cfg.maxIdx.isLt; simp; omega
    refine ⟨u, [BitVec.setWidth 8 c], _, ?_, busy_learn hP hu hk, hu, ?_, rfl, by omega, by omega⟩
    · rw [decodeCode_lit h0]; simp only [exec, execLit]; rw [hu]
    · rw [(learn_tlen hu).2.1 _ (by omega), hT.literals _ (by rw [hcf]; exact h0')]; congr 2
  · right; right; right
    have h0' : s.cfg.maxIdx.toNat + 3 ≤ c.toNat := h0
    have h3' : c.toNat < tlen s := h3
    obtain ⟨k, hk1, hk2⟩ := first_ok hT (i := c.toNat) (by omega) (by rw [hcf]; omega) (by rw [hcf]; omega)
    obtain ⟨u, hu⟩ := learn_total hP k
    obtain ⟨e, he⟩ := entry_of_lt (codePreamble s) c.toNat (by omega)
    have heu : entry u c.toNat = some e := by rw [(learn_tlen hu).2.1 _ (by omega), he]
    refine ⟨u, e, k, ?_, busy_learn hP hu hk2, hu, heu, by simpa [firstOf, he] using hk1, by omega, by omega⟩
    rw [decodeCode_ref h0 h3]; simp only [exec, execRef, hk1]; rw [hu]; simp only [emitEntry, heu]
  · right; right; right
    have h0' : s.cfg.maxIdx.toNat + 3 ≤ c.toNat := h0
    have h3' : c.toNat = tlen s := h3
    have h4' : (codePreamble s).hasPrev = true := (codePreamble_hasPrev s).trans h4
    obtain ⟨hq1, hq2, hq3⟩ := hP.prev_ok h4'
    obtain ⟨k, hk1, hk2⟩ := first_ok hT hq1 hq2 hq3
    obtain ⟨e, he⟩ := entry_of_lt (codePreamble s) _ hq1
    have hu := learn_some (k := k) h4' (show tlen (codePreamble s) < tableCap by simp only [tableCap]; omega) he
    have heu : entry (grow (append (e ++ [k]) (codePreamble s))) c.toNat = some (e ++ [k]) := by
      rw [grow_entry, entry_append, if_neg (by omega), if_pos (by omega)]
    refine ⟨_, e ++ [k], k, ?_, busy_learn hP hu hk2, hu, heu, ?_, by omega, by omega⟩
    · rw [decodeCode_kwk h0 h3 h4]
      simp only [codePreamble_prev] at hk1
      simp only [exec, execKwk, hk1]; rw [hu]; simp only [emitEntry, heu]
    · rw [firstOf, he] at hk1; simp only [Option.bind_some] at hk1
      rw [List.head?_append, hk1]; rfl
  · right; right; left
    rw [decodeCode_bad h0 h3]; rfl

end Sys2Proof.Machine
end

