-- ==== Sys2Proof/Laws/PerInstr.lean ====
section
/-! SUPPORT. The per-instruction family `FormatAgrees`: an instruction is encoded in the format its row of
spec/opcode_table.json gives it, format C for the six classes of a code and a host access for the rest
(30_encoding.md R70, R74, R76). -/

namespace Sys2Proof.Laws.FormatAgrees

/-- The encoding is a code value exactly for the format C rows. -/
def Statement (i : Instr) : Prop :=
  ∀ x : CodeCtx, (∃ c, encode x i = .code c) ↔ Machine.isCode i = true

theorem clr : Statement .clr := fun _ => ⟨fun _ => rfl, fun _ => ⟨_, rfl⟩⟩
theorem eoi : Statement .eoi := fun _ => ⟨fun _ => rfl, fun _ => ⟨_, rfl⟩⟩
theorem lit (c : Code) : Statement (.lit c) := fun _ => ⟨fun _ => rfl, fun _ => ⟨c, rfl⟩⟩
theorem ref (c : Code) : Statement (.ref c) := fun _ => ⟨fun _ => rfl, fun _ => ⟨c, rfl⟩⟩
theorem kwk (c : Code) : Statement (.kwk c) := fun _ => ⟨fun _ => rfl, fun _ => ⟨c, rfl⟩⟩
theorem bad (c : Code) : Statement (.bad c) := fun _ => ⟨fun _ => rfl, fun _ => ⟨c, rfl⟩⟩
theorem start : Statement .start := fun _ => ⟨(nomatch ·), (nomatch ·)⟩
theorem regwr (n : RegNum) (d : Word) : Statement (.regwr n d) := fun _ => ⟨(nomatch ·), (nomatch ·)⟩
theorem regrd (n : RegNum) : Statement (.regrd n) := fun _ => ⟨(nomatch ·), (nomatch ·)⟩
theorem inwr (a : Addr) (v : Byte) : Statement (.inwr a v) := fun _ => ⟨(nomatch ·), (nomatch ·)⟩
theorem plrd (a : Addr) : Statement (.plrd a) := fun _ => ⟨(nomatch ·), (nomatch ·)⟩

end Sys2Proof.Laws.FormatAgrees
end

