-- ==== Sys2Proof/Laws/Registers.lean ====
section
/-! SUPPORT. Reading packed fields as numbers (10_state.md R22 to R36). -/

namespace Sys2Proof.Machine

/-- A field above another, as a number. -/
theorem toNat_append_add {m n : Nat} (x : BitVec m) (y : BitVec n) :
    (x ++ y).toNat = x.toNat * 2 ^ n + y.toNat := by
  rw [BitVec.toNat_append, ← Nat.shiftLeft_add_eq_or_of_lt y.isLt, Nat.shiftLeft_eq]

/-- A one-bit field, as a number. -/
theorem toNat_ofBool_eq (b : Bool) : (BitVec.ofBool b).toNat = b.toNat := by cases b <;> rfl

/-- A field of a word (00_scope.md R12: `v[hi:lo]`). -/
theorem extractLsb'_eq_ofNat {w : Nat} (d : BitVec w) (lo n : Nat) :
    d.extractLsb' lo n = BitVec.ofNat n (d.toNat / 2 ^ lo) := by
  apply BitVec.eq_of_toNat_eq
  simp [Nat.shiftRight_eq_div_pow]

/-- A bit of a word. -/
theorem getLsbD_eq_decide {w : Nat} (d : BitVec w) (i : Nat) : d.getLsbD i = decide (d.toNat / 2 ^ i % 2 = 1) := by
  rw [BitVec.getLsbD, Nat.testBit_eq_decide_div_mod_eq]

end Sys2Proof.Machine
end

