-- ==== Sys2Proof/Tests/Slice0.lean ====
section
/-! SUPPORT. The model's own tests: the well-formedness smoke test, words written out from the spec's encodings,
one step of each instruction with the results of spec/95_test_vectors.md, and a witness for the hypotheses of each
statement. -/

namespace Sys2Proof.Tests

open Sys2Proof.Machine Sys2Proof.Claims

/-! ### Well-formedness: an ill-formed term for each check -/

/-- Four literals, two entries, a previous code (95_test_vectors.md V6 before its last code). -/
def ctx8 : CodeCtx := { maxIdx := 3#8, hasPrev := true, tlen := 8 }

/-- The same right after a clear code. -/
def ctx6 : CodeCtx := { maxIdx := 3#8, hasPrev := false, tlen := 6 }

/-- A small instance. -/
def small : Params := { growBias := 1, planeCap := 16, inCap := 8 }

theorem test_wf_lit_above_maxIdx : Instr.wf small ctx8 (.lit 4#12) = false := by decide
theorem test_wf_ref_below_first : Instr.wf small ctx8 (.ref 5#12) = false := by decide
theorem test_wf_ref_above_table : Instr.wf small ctx8 (.ref 8#12) = false := by decide
theorem test_wf_kwk_not_next : Instr.wf small ctx8 (.kwk 9#12) = false := by decide
theorem test_wf_kwk_without_prev : Instr.wf small ctx6 (.kwk 6#12) = false := by decide
theorem test_wf_bad_with_prev : Instr.wf small ctx8 (.bad 8#12) = false := by decide
theorem test_wf_regwr_that_is_start : Instr.wf small ctx8 (.regwr 0#4 3#32) = false := by decide
theorem test_wf_inwr_outside : Instr.wf small ctx8 (.inwr 8#32 0#8) = false := by decide
theorem test_wf_plrd_outside : Instr.wf small ctx8 (.plrd 16#32) = false := by decide
theorem test_wf_all_accepted : [Instr.clr, .eoi, .lit 3#12, .ref 7#12, .kwk 8#12, .bad 9#12, .start,
    .regwr 0#4 2#32, .regrd 15#4, .inwr 7#32 0#8, .plrd 15#32].all (Instr.wf small ctx8) = true := by decide

/-! ### Words, written out from the spec's encodings -/

/-- 95_test_vectors.md V6: `4/3` is the clear code of a four-entry colour table (30_encoding.md R74 row 1). -/
theorem test_decode_clr : decodeCode ctx6 0b000000000100#12 = .clr := by decide
/-- V6: `5/4` is its EOI code (row 2). -/
theorem test_decode_eoi : decodeCode ctx8 0b000000000101#12 = .eoi := by decide
/-- V3: `85/9` is a literal of a 256-entry colour table (row 3). -/
theorem test_decode_lit : decodeCode { maxIdx := 255#8, hasPrev := false, tlen := 258 } 0b000001010101#12 =
    .lit 0b000001010101#12 := by decide
/-- V9: `6/4` names the entry 6 (row 4). -/
theorem test_decode_ref : decodeCode { ctx8 with tlen := 7 } 0b000000000110#12 = .ref 6#12 := by decide
/-- V7: `7/4` with seven slots in use is the entry about to be assigned (row 5). -/
theorem test_decode_kwk : decodeCode { ctx8 with tlen := 7 } 0b000000000111#12 = .kwk 7#12 := by decide
/-- V10: `6/3` with no previous code is invalid (row 6). -/
theorem test_decode_bad : decodeCode ctx6 0b000000000110#12 = .bad 6#12 := by decide
/-- 40_host_commands.md R92: `START` is a write of register 0 with bit 0 set, whatever the other bits (R76). -/
theorem test_decode_start : decodeAccess (.regWrite 0b0000#4 0b10000000000000000000000000000001#32) = .start := by decide
/-- 40_host_commands.md R91's example: `REGWR 5, 0x00000302`. -/
theorem test_decode_regwr : decodeAccess (.regWrite 0b0101#4 0b00000000000000000000001100000010#32) =
    .regwr 5#4 0x00000302#32 := by decide
/-- 95_test_vectors.md V33: `REGRD 12`. -/
theorem test_decode_regrd : decodeAccess (.regRead 0b1100#4) = .regrd 12#4 := by decide
/-- Program P1: `INWR 1, 0x21` and `PLRD 15` (memory ports, 30_encoding.md R76). -/
theorem test_decode_ports : decodeAccess (.inWrite 1#32 0x21#8) = .inwr 1#32 0x21#8 ∧
    decodeAccess (.planeRead 15#32) = .plrd 15#32 := by decide
/-- One word for each format C row and `START` (log 13). -/
theorem test_table_words : [0, 1, 2, 3, 4, 5].map (decodeTableWord 16) =
    [some (.lit 0#12), some .clr, some .eoi, some (.ref 3#12), some (.kwk 4#12), some (.bad 5#12)] ∧
    decodeTableWord 32 1 = some .start ∧ decodeTableWord 32 2 = some (.regwr 0#4 2#32) ∧
    decodeTableWord 0 0 = none := by decide
/-- V1: the listing `4/3, 0/3, 6/3, 0/4, 5/4` is the bytes `84 A1 00`. -/
theorem test_assemble : assemble [(4, 3), (0, 3), (6, 3), (0, 4), (5, 4)] = [0x84#8, 0xA1#8, 0x00#8] := by decide
/-- V2: three bits from stream bit 6 of `84 21` are the code 6. -/
theorem test_extract : extractCode (fun a => [0x84#8, 0x21#8][a]?) 6 3 = some 6 := by decide

/-! ### One step -/

/-- The next state of an outcome. -/
def next? (o : Host.Outcome State Fault Refusal) : Option State :=
  match o with
  | .next t => some t
  | .fault _ => none
  | .refused _ => none

/-- A memory that holds the bytes given, from address 0. -/
def bytes (l : List Byte) : Memory := l.mapIdx fun i b => (i, b)

/-- The configuration `MINCODE = 2`, `MAXIDX = 3`, the image covering the canvas. -/
def frame (cw ch : BitVec 16) (inLen : Word) : FrameConfig :=
  { FrameConfig.reset with inLen := inLen, minCode := 2#8, maxIdx := 3#8, cw := cw, ch := ch, iw := cw, ih := ch }

/-- A decoder that has just been started on the bytes given (40_host_commands.md R92 step 4). -/
def started (f : FrameConfig) (input : List Byte) : State :=
  { State.reset with
    cfg := f, status := { Status.reset with run := .busy }, codeSize := 3#4
    table := [[0#8], [1#8], [2#8], [3#8], [], []], input := bytes input
    plane := bytes (List.replicate (f.cw.toNat * f.ch.toNat) 0#8), planeValid := true }

/-- The same after a first literal 0 or 1, at stream bit `p`, with the cursor where the vector has it. -/
def afterLit (f : FrameConfig) (input : List Byte) (p : Nat) (v : Byte) (cursor : Word) (plane : List Byte) : State :=
  setBitPos p { started f input with
    hasPrev := true, prev := v.setWidth 12, cursor := cursor, plane := bytes plane }

/-- The same after `0/3, 6/3`: the entry 6 is `[0,0]`, the width has grown (V6, V8 at start bit 9). -/
def afterKwk (cw ch : BitVec 16) (input : List Byte) : State :=
  setBitPos 9 { started (frame cw ch 3#32) input with
    codeSize := 4#4, table := [[0#8], [1#8], [2#8], [3#8], [], [], [0#8, 0#8]]
    hasPrev := true, prev := 6#12, cursor := 3#32 }

/-- What a step table of 95_test_vectors.md shows: `BITPOS`, `CODE_SIZE`, `TLEN`, `CURSOR`. -/
def row (s : State) : Nat × Nat × Nat × Nat := (bitPos s, s.codeSize.toNat, s.table.length, s.cursor.toNat)

/-- V8, start bit 9: `4/4` is a clear code read at the grown width. -/
theorem test_step_clr : (next? (step (afterKwk 7#16 1#16 [0x84#8, 0x29#8, 0x2E#8]))).map
    (fun t => (row t, t.hasPrev, t.prev)) = some ((13, 3, 6, 3), false, 6#12) := by decide

/-- V19, start bit 0: a clear code under Retain passes and paints the addresses 0 to 4. -/
theorem test_step_clr_retain : (next? (step (started { frame 4#16 3#16 3#32 with
      left := 1#16, top := 1#16, iw := 2#16, ih := 2#16, disposal := 1#3, tidx := 9#8 } [0x84#8, 0x05#8, 0x00#8]))).map
    (fun t => (row t, t.plane.take 6)) =
    some ((3, 3, 6, 5), [(0, 9#8), (1, 9#8), (2, 9#8), (3, 9#8), (4, 9#8), (5, 0#8)]) := by decide

/-- V13b, start bit 6: an EOI code on a full canvas is a normal end. -/
theorem test_step_eoi : (next? (step (setBitPos 6 { afterLit (frame 2#16 1#16 2#32) [0x48#8, 0x01#8] 0 1#8 2#32
      [0#8, 1#8] with codeSize := 4#4, table := [[0#8], [1#8], [2#8], [3#8], [], [], [0#8, 1#8]] }))).map
    (fun t => (row t, t.status, t.prev)) =
    some ((10, 4, 0, 2), { Status.reset with run := .done, eoi := true }, 1#12) := by decide

/-- V6, start bit 3: the first literal after a clear code appends nothing. -/
theorem test_step_lit_first : (next? (step (setBitPos 3 (started (frame 2#16 2#16 3#32) [0x84#8, 0xA1#8, 0x00#8])))).map
    (fun t => (row t, t.hasPrev, t.prev)) = some ((6, 3, 6, 1), true, 0#12) := by decide

/-- V5, start bit 6: the literal 1 after the literal 0 appends `[0,1]` and widens the codes. -/
theorem test_step_lit_grows : (next? (step (afterLit (frame 4#16 3#16 7#32)
      [0x44#8, 0x64#8, 0x20#8, 0x64#8, 0x20#8, 0xC4#8, 0x28#8] 6 0#8 1#32 (List.replicate 12 0#8)))).map
    (fun t => (row t, t.table[6]?, Memory.read t.plane 1)) =
    some ((9, 4, 7, 2), some [0#8, 1#8], some 1#8) := by decide

/-- V4, start bit 22: `6/11` names the entry `[3,2]`, and appends `[2,3]`. -/
theorem test_step_ref : (next? (step (setBitPos 22 { started { frame 4#16 1#16 6#32 with minCode := 10#8 }
        [0x03#8, 0x10#8, 0x80#8, 0x01#8, 0x0A#8, 0x00#8] with
      codeSize := 11#4, table := [[0#8], [1#8], [2#8], [3#8], [], [], [3#8, 2#8]], hasPrev := true, prev := 2#12
      cursor := 2#32, plane := bytes [3#8, 2#8, 0#8, 0#8] }))).map
    (fun t => (row t, t.table[7]?, t.plane.map Prod.snd, t.prev)) =
    some ((33, 11, 8, 4), some [2#8, 3#8], [3#8, 2#8, 3#8, 2#8], 6#12) := by decide

/-- V7, start bit 9: `7/4` is the entry `[1,1,1]` it appends. -/
theorem test_step_kwk : (next? (step { afterKwk 3#16 2#16 [0x8C#8, 0xAF#8, 0x00#8] with
      table := [[0#8], [1#8], [2#8], [3#8], [], [], [1#8, 1#8]], plane := bytes [1#8, 1#8, 1#8, 0#8, 0#8, 0#8] })).map
    (fun t => (row t, t.table[7]?, t.plane.map Prod.snd, t.prev)) =
    some ((13, 4, 8, 6), some [1#8, 1#8, 1#8], List.replicate 6 1#8, 7#12) := by decide

/-- V13, start bit 3: the second index of the sequence does not fit; the code is not marked. -/
theorem test_step_kwk_overrun : (next? (step (afterLit (frame 2#16 1#16 2#32) [0x70#8, 0x01#8] 3 0#8 1#32
      [0#8, 0#8]))).map (fun t => (row t, t.status, t.prev)) =
    some ((6, 4, 0, 2), { Status.reset with run := .fault, cause := .decodeOverrun, fbit := 3#3 }, 0#12) := by decide

/-- V4b, start bit 22: the invalid code 1445 faults with `FBYTE = 2`, `FBIT = 6`. -/
theorem test_step_bad : (next? (step (setBitPos 22 { started { frame 4#16 1#16 6#32 with minCode := 10#8 }
        [0x00#8, 0x08#8, 0x40#8, 0x69#8, 0x0B#8, 0x00#8] with
      codeSize := 11#4, table := [[0#8], [1#8], [2#8], [3#8], [], [], [0#8, 1#8]], hasPrev := true, prev := 1#12
      cursor := 2#32, plane := bytes [0#8, 1#8, 0#8, 0#8] }))).map
    (fun t => (row t, t.status, t.prev)) = some ((33, 11, 0, 2),
      { Status.reset with run := .fault, cause := .badCode, fbyte := 2#32, fbit := 6#3 }, 1#12) := by decide

/-- V15: empty input ends with `TRUNC`; `STATUS` reads `0x0000000A`. -/
theorem test_step_trunc : (next? (step (started (frame 2#16 2#16 0#32) []))).map
    (fun t => (row t, regRead t 1#4)) = some ((0, 3, 0, 0), 0x0000000A#32) := by decide

/-- The default instance with a host access as its next turn. -/
def hosted (a : Access) (s : State) : State := { s with turns := [.host a] }

/-- 40_host_commands.md R92's example: `MINCODE = 2`, `MAXIDX = 1`, a 2×2 canvas, IN = `18`. -/
def readyToStart : State :=
  hosted (.regWrite 0#4 1#32) { State.reset with
    cfg := { frame 2#16 2#16 1#32 with maxIdx := 1#8 }, input := [(0, 0x18#8)] }

/-- After START of that example. -/
theorem test_step_start : (next? (step readyToStart)).map (fun t => (row t, t.status.run, t.hasPrev)) =
      some ((0, 3, 4, 0), .busy, false) ∧
    (next? (step readyToStart)).map (fun t => (t.table.take 2, t.plane.map Prod.snd)) =
      some ([[0#8], [1#8]], [0#8, 0#8, 0#8, 0#8]) := by decide

/-- V16: `MINCODE = 0` is refused with `BadParam`; `STATUS` reads 3, `CAUSE` 1. -/
theorem test_step_start_badParam : (next? (step (hosted (.regWrite 0#4 1#32) State.reset))).map
    (fun t => (regRead t 1#4, regRead t 2#4)) = some (3#32, 1#32) := by decide

/-- 40_host_commands.md R91's example: `REGWR 5, 0x00000302` sets `MINCODE = 2`, `MAXIDX = 3`. -/
theorem test_step_regwr : (next? (step (hosted (.regWrite 5#4 0x00000302#32) State.reset))).map
    (fun t => (t.cfg.minCode, t.cfg.maxIdx, t.status)) = some (2#8, 3#8, Status.reset) := by decide

/-- R91: a register write while `BUSY` is lost. -/
theorem test_step_regwr_busy : (next? (step (hosted (.regWrite 6#4 0x00010001#32)
      (started (frame 2#16 2#16 1#32) [0x18#8])))).map (fun t => (t.cfg.cw, t.turns)) = some (2#16, []) := by decide

/-- Program P1 at its end: `REGRD 12` reads `0x00000A24`. -/
theorem test_step_regrd : (next? (step (hosted (.regRead 12#4) { State.reset with
      status := { Status.reset with run := .done, eoi := true }, codeSize := 4#4, prev := 10#12, bytePos := 5#32
      bitOff := 1#3 }))).map (fun t => t.seen) = some [.reg 12#4 0x00000A24#32] := by decide

/-- 40_host_commands.md R93's example: `INWR 0, 0x18`; the canonical form is kept. -/
theorem test_step_inwr : (next? (step (hosted (.inWrite 0#32 0x18#8) { State.reset with
      input := [(1, 0x01#8)] }))).map (fun t => t.input) = some [(0, 0x18#8), (1, 0x01#8)] := by decide

/-- 40_host_commands.md R94's example: after the frame decode, `PLRD 3` returns 0. -/
theorem test_step_plrd : (next? (step (hosted (.planeRead 3#32) { State.reset with
      cfg := frame 2#16 2#16 1#32, status := { Status.reset with run := .done, eoi := true }
      plane := bytes [0#8, 0#8, 0#8, 0#8], planeValid := true }))).map (fun t => (t.seen, t.draws)) =
    some ([.plane 3#32 0#8], 0) := by decide

/-- A code word and a register word placed after reset run in the very next step (log 13). -/
theorem test_withFetchWord : (next? (step (State.reset.withFetchWord 16 1))).map (fun t => t.table.length) = some 3 ∧
    (next? (step (State.reset.withFetchWord 16 3))).map (fun t => t.status.cause) = some .decodeOverrun ∧
    (next? (step (State.reset.withFetchWord 32 1))).map (fun t => t.status.cause) = some .badParam := by decide

/-! ### States that meet the hypotheses of the statements -/

/-- V6 right after START: nothing read yet. -/
def fresh : State := started (frame 2#16 2#16 3#32) [0x84#8, 0xA1#8, 0x00#8]

/-- V6 at start bit 9: seven slots in use, width 4, one canvas position left. -/
def tight : State := afterKwk 2#16 2#16 [0x84#8, 0xA1#8, 0x00#8]

/-- V8 at start bit 9: the same with four canvas positions left. -/
def roomy : State := afterKwk 7#16 1#16 [0x84#8, 0x29#8, 0x2E#8]

/-- Three bits are left of a four-bit code. -/
def drained : State := setBitPos 21 tight

/-- A full table: 4096 slots, the last code the previous one. -/
def full : State :=
  { started { frame 1#16 1#16 2#32 with minCode := 1#8, maxIdx := 0#8 } [0xFF#8, 0x0F#8] with
    codeSize := 12#4, table := [[0#8], [], []] ++ List.replicate 4093 [0#8, 0#8], hasPrev := true, prev := 4095#12 }

/-- An instance of eight IN bytes and four PLANE bytes, ready for a frame that uses all of both. -/
def ready : State :=
  { State.resetOf { growBias := 0, planeCap := 4, inCap := 8 } with
    cfg := { frame 2#16 2#16 8#32 with minCode := 11#8 }, input := bytes (List.replicate 8 0#8) }

/-- V6 after its end. -/
def finished : State :=
  { started (frame 2#16 2#16 3#32) [0x84#8, 0xA1#8, 0x00#8] with
    status := { Status.reset with run := .done, eoi := true }, table := [] }

theorem elements_of_all {t : List (List Byte)} {n : Nat}
    (h : t.all (fun e => e.all fun b => decide (b.toNat ≤ n)) = true) : ∀ e ∈ t, ∀ b ∈ e, b.toNat ≤ n := by
  intro e he b hb
  exact of_decide_eq_true (List.all_eq_true.1 (List.all_eq_true.1 h e he) b hb)

theorem fresh_inv : Inv fresh where
  params_ok := by decide
  input_ok := ⟨by decide, by decide⟩
  plane_ok := ⟨by decide, by decide⟩
  status_ok := ⟨by decide, by decide, by decide, by decide⟩
  released := fun h => absurd rfl h
  plane_written := fun _ => by decide
  busy_ok := fun _ =>
    { minCode_ok := by decide
      width_ok := by decide
      table_ok :=
        { length_ok := by decide
          literals := by decide
          sentinels := by decide
          grown := fun i e hi he => absurd (entry_lt he) (Nat.not_lt.2 hi)
          elements := elements_of_all (by decide) }
      prev_ok := by decide
      fresh_ok := by decide
      cursor_ok := by decide
      bitPos_ok := by decide
      canvas_fits := by decide
      input_fits := by decide
      input_written := by decide
      plane_zeroed := rfl }

theorem grown_of_seven {s : State} (hm : s.cfg.maxIdx = 3#8)
    (ht : s.table = [[0#8], [1#8], [2#8], [3#8], [], [], [0#8, 0#8]]) (i : Nat) (e : List Byte)
    (hi : s.cfg.maxIdx.toNat + 3 ≤ i) (he : entry s i = some e) :
    2 ≤ e.length ∧ e.length + s.cfg.maxIdx.toNat + 1 ≤ i := by
  have hlt : i < s.table.length := entry_lt he
  rw [ht] at hlt
  rw [hm] at hi ⊢
  obtain rfl : i = 6 := by simp at hlt hi; omega
  unfold entry at he
  rw [ht] at he
  cases he; decide

theorem tight_inv : Inv tight where
  params_ok := by decide
  input_ok := ⟨by decide, by decide⟩
  plane_ok := ⟨by decide, by decide⟩
  status_ok := ⟨by decide, by decide, by decide, by decide⟩
  released := fun h => absurd rfl h
  plane_written := fun _ => by decide
  busy_ok := fun _ =>
    { minCode_ok := by decide
      width_ok := by decide
      table_ok :=
        { length_ok := by decide
          literals := by decide
          sentinels := by decide
          grown := grown_of_seven rfl rfl
          elements := elements_of_all (by decide) }
      prev_ok := by decide
      fresh_ok := by decide
      cursor_ok := by decide
      bitPos_ok := by decide
      canvas_fits := by decide
      input_fits := by decide
      input_written := by decide
      plane_zeroed := rfl }

theorem full_length : full.table.length = 4096 := by
  show ([[0#8], [], []] ++ List.replicate 4093 [0#8, 0#8]).length = 4096
  rw [List.length_append, List.length_replicate]; rfl

theorem full_entry (i : Nat) (h : 3 ≤ i) (h' : i < 4096) : entry full i = some [0#8, 0#8] := by
  show ([[0#8], [], []] ++ List.replicate 4093 [0#8, 0#8])[i]? = some [0#8, 0#8]
  rw [List.getElem?_append_right (by simpa using h), List.getElem?_replicate, if_pos (by simp; omega)]

theorem full_inv : Inv full where
  params_ok := by decide
  input_ok := ⟨by decide, by decide⟩
  plane_ok := ⟨by decide, by decide⟩
  status_ok := ⟨by decide, by decide, by decide, by decide⟩
  released := fun h => absurd rfl h
  plane_written := fun _ => by decide
  busy_ok := fun _ =>
    { minCode_ok := by decide
      width_ok := by decide
      table_ok :=
        { length_ok := by
            rw [show tlen full = 4096 from full_length]; decide
          literals := fun i hi => by
            obtain rfl : i = 0 := Nat.le_zero.1 hi
            rfl
          sentinels := ⟨rfl, rfl⟩
          grown := fun i e hi he => by
            have hlt : i < 4096 := full_length ▸ entry_lt he
            have hi3 : 3 ≤ i := hi
            rw [full_entry i hi3 hlt] at he
            cases he
            exact ⟨Nat.le_refl 2, hi3⟩
          elements := fun e he b hb => by
            have he' : e ∈ [[0#8], [], []] ++ List.replicate 4093 [0#8, 0#8] := he
            have hb' : b = 0#8 := by
              rcases List.mem_append.1 he' with h | h
              · have h' := elements_of_all (t := [[0#8], [], []]) (n := 0) (by decide) e h b hb
                exact BitVec.eq_of_toNat_eq (Nat.le_zero.1 h')
              · rw [List.eq_of_mem_replicate h] at hb
                simpa using hb
            rw [hb']; exact Nat.zero_le _ }
      prev_ok := fun _ => by
        rw [show tlen full = 4096 from full_length]; decide
      fresh_ok := fun h => by cases h
      cursor_ok := by decide
      bitPos_ok := by decide
      canvas_fits := by decide
      input_fits := by decide
      input_written := by decide
      plane_zeroed := rfl }

theorem ready_inv : Inv ready where
  params_ok := by decide
  input_ok := ⟨by decide, by decide⟩
  plane_ok := ⟨by decide, by decide⟩
  status_ok := ⟨by decide, by decide, by decide, by decide⟩
  released := fun _ => ⟨rfl, rfl⟩
  plane_written := by decide
  busy_ok := fun h => by cases h

theorem finished_inv : Inv finished where
  params_ok := by decide
  input_ok := ⟨by decide, by decide⟩
  plane_ok := ⟨by decide, by decide⟩
  status_ok := ⟨by decide, by decide, by decide, by decide⟩
  released := fun _ => ⟨rfl, rfl⟩
  plane_written := fun _ => by decide
  busy_ok := fun h => by cases h

/-! ### Witnesses: for each statement with hypotheses, states and operands that meet them, clause by clause -/

/-- Does the fetch of `s` find the code `c`. -/
def finds (s : State) (c : Code) : Bool := decide (fetch s = .code c)

theorem witness_HardwareResetFromAnyState :
    ({ fresh with turns := [.reset] } : State).turns = .reset :: [] := rfl

theorem witness_RegrdReturnsTheRegisterLayout :
    (0#4).toNat = 0 ∧ (14#4).toNat = 14 ∧ (15#4).toNat = 15 ∧ (1#4).toNat = 1 ∧ (12#4).toNat = 12 ∧
    (13#4).toNat = 13 ∧ tight.table.length ≤ 4096 ∧ full.table.length ≤ 4096 :=
  ⟨rfl, rfl, rfl, rfl, rfl, rfl, by decide, Nat.le_of_eq full_length⟩

theorem witness_RegwrStoresNamedFields :
    fresh.status.run = .busy ∧ ready.status.run ≠ .busy ∧
    ((0#4).toNat = 0 ∧ (1#32).toNat % 2 = 1) ∧ ((0#4).toNat = 0 ∧ (0xFFFFFFFE#32).toNat % 2 = 0) ∧
    (4#4).toNat = 4 ∧ (9#4).toNat = 9 ∧ (1#4).toNat ∈ [1, 2, 3, 10, 11, 12, 13, 14, 15] ∧
    (15#4).toNat ∈ [1, 2, 3, 10, 11, 12, 13, 14, 15] := by decide

/-- START's parameters at their bounds: `MINCODE` 0 and 12, one canvas row and one IN byte too many; and 11, with
both memories used to the last byte. -/
theorem witness_StartBeginsOrFaults :
    fresh.status.run = .busy ∧
    (ready.status.run ≠ .busy ∧ BadStart { ready with cfg := { ready.cfg with minCode := 0#8 } } ∧
      BadStart { ready with cfg := { ready.cfg with minCode := 12#8 } } ∧
      BadStart { ready with cfg := { ready.cfg with ch := 3#16 } } ∧
      BadStart { ready with cfg := { ready.cfg with inLen := 9#32 } }) ∧
    (ready.status.run ≠ .busy ∧ ¬BadStart ready ∧ InputWritten ready) := by
  simp only [BadStart, InputWritten]; decide

theorem witness_UnwrittenInputIsNeverRead :
    InputWritten fresh ∧
    (ready.status.run ≠ .busy ∧ ¬BadStart { ready with input := [] } ∧ ¬InputWritten { ready with input := [] }) := by
  simp only [BadStart, InputWritten]; decide

theorem witness_InwrStoresOneByte : ready.status.run ≠ .busy ∧ (7#32).toNat < ready.params.inCap := by decide

theorem witness_InwrStopsOutsideItsRange :
    fresh.status.run = .busy ∧ (ready.status.run ≠ .busy ∧ ready.params.inCap ≤ (8#32).toNat) := by decide

/-- The last byte of the frame has a value; the address after it, and a machine that is `BUSY`, have none. -/
theorem witness_PlrdReturnsThePlaneOrAnyValue :
    (((finished.status.run = .done ∨ finished.status.run = .fault) ∧
        (3#32).toNat < finished.cfg.cw.toNat * finished.cfg.ch.toNat ∧ finished.planeValid = true) ∧
      Memory.read finished.plane (3#32).toNat = some 0#8) ∧
    ¬((finished.status.run = .done ∨ finished.status.run = .fault) ∧
        (4#32).toNat < finished.cfg.cw.toNat * finished.cfg.ch.toNat ∧ finished.planeValid = true) ∧
    ¬(fresh.status.run = .done ∨ fresh.status.run = .fault) := by decide

theorem witness_PlaneClaimFollowsStartAndCanvas :
    (Instr.wf ready.params (codeCtx ready) .start = true ∧ (∃ t, exec .start ready = .next t) ∧
      ready.status.run ≠ .busy) ∧
    (Instr.wf ready.params (codeCtx ready) (.regwr 6#4 1#32) = true ∧
      ∃ t, exec (.regwr 6#4 1#32) ready = .next t) ∧
    (Instr.wf tight.params (codeCtx tight) .clr = true ∧ (∃ t, exec .clr tight = .next t) ∧
      (Instr.clr ≠ .start ∧ ∀ d, Instr.clr ≠ .regwr 6#4 d) ∧ tight.status.run = .busy) :=
  ⟨⟨rfl, ⟨_, rfl⟩, by decide⟩, ⟨rfl, ⟨_, rfl⟩⟩, ⟨rfl, ⟨_, rfl⟩, ⟨by decide, fun _ h => by cases h⟩, rfl⟩⟩

theorem witness_HostTurnRunsTheAccess :
    (0x80000001#32).toNat % 2 = 1 ∧ ¬((0#4).toNat = 0 ∧ (2#32).toNat % 2 = 1) ∧
    ¬((1#4).toNat = 0 ∧ (1#32).toNat % 2 = 1) ∧ (hosted (.regRead 1#4) fresh).turns = .host (.regRead 1#4) :: [] := by
  decide

/-- The last code that fits: bits 20 to 23 of a three-byte IN. -/
theorem witness_FetchAssemblesTheCode :
    InputWritten (setBitPos 20 tight) ∧ (setBitPos 20 tight).codeSize.toNat ≤ 12 ∧
    bitPos (setBitPos 20 tight) + (setBitPos 20 tight).codeSize.toNat ≤ 8 * (setBitPos 20 tight).cfg.inLen.toNat := by
  simp only [InputWritten]; decide

/-- V6's code at bits 6 to 8 lies in the bytes 0 and 1; byte 2 may differ. -/
theorem witness_FetchReadsOnlyItsBytes :
    ∀ a, bitPos (setBitPos 6 fresh) / 8 ≤ a → a ≤ (bitPos (setBitPos 6 fresh) + (setBitPos 6 fresh).codeSize.toNat - 1) / 8 →
      Memory.read (bytes [0x84#8, 0xA1#8, 0xFF#8]) a = Memory.read (setBitPos 6 fresh).input a := by
  intro a _ h
  have h' : a ≤ 1 := h
  have : ∀ a, a ≤ 1 →
      Memory.read (bytes [0x84#8, 0xA1#8, 0xFF#8]) a = Memory.read (setBitPos 6 fresh).input a := by decide
  exact this a h'

/-- The smallest and the largest initial table. -/
theorem witness_ClassesAreDisjointAndCover : (0#8).toNat + 3 ≤ 3 ∧ (255#8).toNat + 3 ≤ 258 ∧ (3#8).toNat + 3 ≤ 4096 := by
  decide

theorem witness_DecodeOfEncodeIsTheInstruction :
    Instr.wf small ctx8 (.lit 3#12) = true ∧ Instr.wf small ctx8 (.ref 6#12) = true ∧
    Instr.wf small ctx8 (.kwk 8#12) = true ∧ Instr.wf small ctx6 (.bad 6#12) = true ∧
    Instr.wf small ctx8 (.regwr 0#4 0xFFFFFFFE#32) = true ∧ Instr.wf small ctx8 (.plrd 15#32) = true := by decide

/-- V5's fourth code has codes before it and after it. -/
theorem witness_AssembledListingsAreReadBack :
    (∀ c ∈ [(4, 3), (0, 3), (1, 3), (2, 4), (3, 4)], c.1 < 2 ^ c.2) ∧
    [(4, 3), (0, 3), (1, 3), (2, 4), (3, 4)] = [(4, 3), (0, 3), (1, 3)] ++ (2, 4) :: [(3, 4)] ∧
    (([(4, 3), (0, 3), (1, 3), (2, 4), (3, 4)].map Prod.snd).sum ≤ 17 ∧
      17 < 8 * (assemble [(4, 3), (0, 3), (1, 3), (2, 4), (3, 4)]).length) := by decide

theorem witness_StepRunsTheDecodedCode :
    fresh.status.run = .busy ∧ DecoderNext fresh ∧ finds fresh 4#12 = true ∧
    DecoderNext { fresh with turns := [.decoder] } :=
  ⟨rfl, .inl rfl, by decide, .inr ⟨[], rfl⟩⟩

/-- Three bits are left of a four-bit code. -/
theorem witness_ExhaustedInputEndsWithTrunc :
    drained.status.run = .busy ∧ 8 * drained.cfg.inLen.toNat < bitPos drained + drained.codeSize.toNat := by decide

theorem witness_DecoderRestsWhenNotBusy : finished.status.run ≠ .busy ∧ DecoderNext finished :=
  ⟨by decide, .inl rfl⟩

/-- A rectangle that begins right of the canvas, one below it, and the last column of a row. -/
theorem witness_InsideIsTheRectangle :
    (frame 2#16 0#16 0#32).ih = 0#16 ∧
    (3 < (frame 2#16 2#16 0#32).cw.toNat * (frame 2#16 2#16 0#32).ch.toNat ∧
      (frame 2#16 2#16 0#32).cw.toNat ≤ { frame 2#16 2#16 0#32 with left := 2#16 }.left.toNat) ∧
    1 < (frame 2#16 2#16 0#32).cw.toNat := by decide

/-- The cursor at the start and at the end of the canvas. -/
theorem witness_SkipPassesAndPaintsOutside :
    fresh.cursor.toNat ≤ fresh.cfg.cw.toNat * fresh.cfg.ch.toNat ∧
    ({ fresh with cursor := 4#32 } : State).cursor.toNat ≤ fresh.cfg.cw.toNat * fresh.cfg.ch.toNat := by decide

theorem witness_EmptyCanvasHasNoPosition :
    (started (frame 0#16 5#16 1#32) [0x2C#8]).cfg.cw = 0#16 ∧
    (3#12).toNat ≤ (started (frame 0#16 5#16 1#32) [0x2C#8]).cfg.maxIdx.toNat ∧
    (started (frame 0#16 5#16 1#32) [0x2C#8]).hasPrev = false := by decide

/-- One position left: one index fits exactly, two do not. -/
theorem witness_EmitWritesThenMarksOrOverruns :
    tight.cursor.toNat ≤ tight.cfg.cw.toNat * tight.cfg.ch.toNat ∧
    tight.cursor.toNat + [0#8].length ≤ tight.cfg.cw.toNat * tight.cfg.ch.toNat ∧
    tight.cfg.cw.toNat * tight.cfg.ch.toNat < tight.cursor.toNat + [0#8, 0#8].length := by decide

theorem witness_ClrOnlyShortensTheTable : Inv tight ∧ tight.status.run = .busy := ⟨tight_inv, rfl⟩

/-- The last literal, with a previous code; one canvas position left, and none. -/
theorem witness_LitEmitsItsIndex :
    (3#12).toNat ≤ tight.cfg.maxIdx.toNat ∧ (tight.hasPrev = true → tight.table[tight.prev.toNat]? = some [0#8, 0#8]) ∧
    (codePreamble tight).cursor.toNat < tight.cfg.cw.toNat * tight.cfg.ch.toNat ∧
    tight.cfg.cw.toNat * tight.cfg.ch.toNat ≤ (codePreamble { tight with cursor := 4#32 }).cursor.toNat := by decide

/-- V9's reference to the entry 6: it fits on V8's canvas and overruns on V6's. -/
theorem witness_RefEmitsItsEntry :
    tight.cfg.maxIdx.toNat + 3 ≤ (6#12).toNat ∧ tight.table[(6#12).toNat]? = some [0#8, 0#8] ∧
    [0#8, 0#8].head? = some 0#8 ∧ (tight.hasPrev = true → tight.table[tight.prev.toNat]? = some [0#8, 0#8]) ∧
    (codePreamble tight).cursor.toNat ≤ tight.cfg.cw.toNat * tight.cfg.ch.toNat ∧
    tight.cfg.cw.toNat * tight.cfg.ch.toNat < (codePreamble tight).cursor.toNat + [0#8, 0#8].length ∧
    roomy.table[(6#12).toNat]? = some [0#8, 0#8] ∧
    (codePreamble roomy).cursor.toNat + [0#8, 0#8].length ≤ roomy.cfg.cw.toNat * roomy.cfg.ch.toNat := by decide

theorem witness_RefEmitsItsEntry_inv : Inv tight ∧ tight.status.run = .busy := ⟨tight_inv, rfl⟩

/-- V7's code 7: the entry `[0,0,0]` fits on V8's canvas and overruns on V6's. -/
theorem witness_KwkEmitsTheEntryItAppends :
    (7#12).toNat = tight.table.length ∧ tight.hasPrev = true ∧ tight.table.length < 4096 ∧
    tight.table[tight.prev.toNat]? = some [0#8, 0#8] ∧ [0#8, 0#8].head? = some 0#8 ∧
    (codePreamble tight).cursor.toNat ≤ tight.cfg.cw.toNat * tight.cfg.ch.toNat ∧
    tight.cfg.cw.toNat * tight.cfg.ch.toNat < (codePreamble tight).cursor.toNat + ([0#8, 0#8].length + 1) ∧
    (7#12).toNat = roomy.table.length ∧
    (codePreamble roomy).cursor.toNat + ([0#8, 0#8].length + 1) ≤ roomy.cfg.cw.toNat * roomy.cfg.ch.toNat := by decide

/-- The smallest invalid code without and with a previous code. -/
theorem witness_BadCodeFaults :
    (ctx6.maxIdx.toNat + 3 ≤ (6#12).toNat ∧ (6#12).toNat = ctx6.tlen ∧ ctx6.hasPrev = false) ∧
    (ctx8.maxIdx.toNat + 3 ≤ (9#12).toNat ∧ ctx8.tlen < (9#12).toNat) := by decide

theorem witness_MissingSlotsStop :
    (({ tight with prev := 7#12 } : State).hasPrev = true ∧ tight.table.length < 4096 ∧
      tight.table[({ tight with prev := 7#12 } : State).prev.toNat]? = none) ∧
    tight.table[(7#12).toNat]? = none ∧ tight.table[(4#12).toNat]? = some [] := by decide

theorem witness_DataClassesAgreeWithData :
    (Inv tight ∧ tight.status.run = .busy) ∧
    ((3#12).toNat ≠ tight.cfg.maxIdx.toNat + 1 ∧ (3#12).toNat ≠ tight.cfg.maxIdx.toNat + 2) ∧
    ((6#12).toNat ≠ tight.cfg.maxIdx.toNat + 1 ∧ (6#12).toNat ≠ tight.cfg.maxIdx.toNat + 2) :=
  ⟨⟨tight_inv, rfl⟩, by decide, by decide⟩

/-- At a threshold, one short of it, and with the widest codes. -/
theorem witness_GrowAtTheThresholdOnly :
    (({ tight with codeSize := 3#4 } : State).table.length = 2 ^ 3 - tight.params.growBias.val ∧
      ({ tight with codeSize := 3#4 } : State).codeSize.toNat < 12) ∧
    ¬(tight.table.length = 2 ^ tight.codeSize.toNat - tight.params.growBias.val ∧ tight.codeSize.toNat < 12) ∧
    (tight.params.growBias = 1 ∧ 2 ≤ tight.codeSize.toNat ∧ tight.codeSize.toNat ≤ 12) ∧
    ({ tight with codeSize := 12#4 } : State).codeSize.toNat ≤ 12 := by decide

theorem witness_FullTableStillDecodes :
    Inv full ∧ full.status.run = .busy ∧ full.table.length = 4096 ∧
    ((0#12).toNat ≠ full.cfg.maxIdx.toNat + 1 ∧ (0#12).toNat ≠ full.cfg.maxIdx.toNat + 2) ∧
    ((4095#12).toNat ≠ full.cfg.maxIdx.toNat + 1 ∧ (4095#12).toNat ≠ full.cfg.maxIdx.toNat + 2) :=
  ⟨full_inv, rfl, full_length, by decide, by decide⟩

/-- `tight` with the two-index code 6 next (the stream of V9 at start bit 9). -/
def tightRef : State := { tight with input := bytes [0x84#8, 0xAD#8, 0x00#8] }

theorem tightRef_inv : Inv tightRef where
  params_ok := by decide
  input_ok := ⟨by decide, by decide⟩
  plane_ok := tight_inv.plane_ok
  status_ok := tight_inv.status_ok
  released := tight_inv.released
  plane_written := tight_inv.plane_written
  busy_ok := fun h =>
    let b := tight_inv.busy_ok h
    { minCode_ok := b.minCode_ok
      width_ok := b.width_ok
      table_ok :=
        { length_ok := b.table_ok.length_ok
          literals := b.table_ok.literals
          sentinels := b.table_ok.sentinels
          grown := b.table_ok.grown
          elements := b.table_ok.elements }
      prev_ok := b.prev_ok
      fresh_ok := b.fresh_ok
      cursor_ok := b.cursor_ok
      bitPos_ok := b.bitPos_ok
      canvas_fits := b.canvas_fits
      input_fits := b.input_fits
      input_written := by decide
      plane_zeroed := rfl }

/-- The code 6 overruns; the code 15 is invalid. -/
theorem witness_FaultsArePrecise :
    (Inv tightRef ∧ tightRef.status.run = .busy ∧ finds tightRef 6#12 = true ∧
      ((next? (exec (decodeCode (codeCtx tightRef) 6#12) tightRef)).map fun t => (t.status.run, t.status.cause)) =
        some (.fault, .decodeOverrun)) ∧
    ((next? (exec (decodeCode (codeCtx tightRef) 15#12) tightRef)).map fun t => (t.status.run, t.status.cause)) =
        some (.fault, .badCode) :=
  ⟨⟨tightRef_inv, rfl, by decide, by decide⟩, by decide⟩

/-- Exhausted input; V10's invalid first code; an EOI code. -/
theorem witness_EventsHaveTheirPriority :
    (drained.status.run = .busy ∧ DecoderNext drained ∧
      8 * drained.cfg.inLen.toNat < bitPos drained + drained.codeSize.toNat) ∧
    (DecoderNext { fresh with input := bytes [0x06#8, 0x00#8, 0x00#8] } ∧
      finds { fresh with input := bytes [0x06#8, 0x00#8, 0x00#8] } 6#12 = true ∧
      fresh.cfg.maxIdx.toNat + 3 ≤ (6#12).toNat ∧ (6#12).toNat = fresh.table.length ∧ fresh.hasPrev = false) ∧
    (finds { fresh with input := bytes [0x05#8, 0x00#8, 0x00#8] } 5#12 = true ∧
      (5#12).toNat = fresh.cfg.maxIdx.toNat + 2) :=
  ⟨⟨rfl, .inl rfl, by decide⟩, ⟨.inl rfl, by decide, by decide, by decide, rfl⟩, by decide, by decide⟩

theorem witness_CodesLeaveEverythingElse :
    isCode (.ref 6#12) = true ∧ (∃ t, exec (.ref 6#12) roomy = .next t) ∧
    (∃ a, a < roomy.cursor.toNat) ∧ (roomy.cfg.disposal.toNat ≠ 1 ∧ 2 < (codePreamble roomy).cursor.toNat) ∧
    roomy.cursor.toNat ≤ roomy.cfg.cw.toNat * roomy.cfg.ch.toNat :=
  ⟨rfl, ⟨_, rfl⟩, ⟨2, by decide⟩, by decide, by decide⟩

/-- The cursor at the start of the canvas; and the last code that fits, with a next state. -/
theorem witness_BitposMovesByTheWidth :
    fresh.cursor.toNat ≤ fresh.cfg.cw.toNat * fresh.cfg.ch.toNat ∧ isCode (.lit 0#12) = true ∧ (∃ t, exec (.lit 0#12) (setBitPos 20 tight) = .next t) ∧
    bitPos (setBitPos 20 tight) + (setBitPos 20 tight).codeSize.toNat ≤ 8 * (setBitPos 20 tight).cfg.inLen.toNat :=
  ⟨by decide, rfl, ⟨_, rfl⟩, by decide⟩

theorem witness_BusyFreezesTheConfiguration :
    (hosted (.regWrite 6#4 0#32) fresh).status.run = .busy ∧
    (∀ ts, (hosted (.regWrite 6#4 0#32) fresh).turns ≠ .reset :: ts) ∧
    ∃ t, step (hosted (.regWrite 6#4 0#32) fresh) = .next t :=
  ⟨rfl, fun _ h => (by cases h), ⟨_, rfl⟩⟩

theorem finished_no_start :
    ∀ u ts, (hosted (.regWrite 0#4 2#32) finished).turns = u :: ts → ¬IssuesStart u := by
  intro u ts h
  cases h
  rintro ⟨d, hd, hb⟩
  cases hd
  exact absurd hb (by decide)

theorem witness_EndStatesAreSticky :
    ended finished = true ∧ (∀ ts, (hosted (.regWrite 0#4 2#32) finished).turns ≠ .reset :: ts) ∧
    (∀ u ts, (hosted (.regWrite 0#4 2#32) finished).turns = u :: ts → ¬IssuesStart u) ∧
    ∃ t, step (hosted (.regWrite 0#4 2#32) finished) = .next t :=
  ⟨rfl, fun _ h => (by cases h), finished_no_start, ⟨_, rfl⟩⟩

theorem witness_OnlyTheHostWritesInput :
    (∃ t, step (hosted (.inWrite 7#32 1#8) ready) = .next t ∧
      Memory.read t.input 7 ≠ Memory.read (hosted (.inWrite 7#32 1#8) ready).input 7) ∧
    ∀ ts, (hosted (.inWrite 7#32 1#8) ready).turns ≠ .reset :: ts :=
  ⟨⟨_, rfl, by decide⟩, fun _ h => by cases h⟩

theorem witness_ParametersAreConstant : ∃ t, step fresh = .next t := ⟨_, rfl⟩

theorem witness_ReadAfterWrite :
    Memory.wf (bytes [1#8, 2#8]) ∧ Memory.read (bytes [1#8, 2#8]) 1 = some 2#8 := by decide

theorem witness_EveryStepKeepsTheInvariant : Inv tight ∧ ∃ t, step tight = .next t := ⟨tight_inv, ⟨_, rfl⟩⟩

theorem witness_DecoderStepIsTotal :
    (Inv tight ∧ tight.status.run = .busy ∧ DecoderNext tight) ∧
    (Inv ready ∧ ready.status.run ≠ .busy ∧ InputWritten ready) :=
  ⟨⟨tight_inv, rfl, .inl rfl⟩, ready_inv, by decide, by simp only [InputWritten]; decide⟩

theorem witness_FrameDecodeEndsInFiveWays : Inv finished ∧ ended finished = true := ⟨finished_inv, rfl⟩

theorem witness_FrameDecodeEndsInTime : Inv fresh ∧ fresh.status.run = .busy ∧ fresh.turns = [] :=
  ⟨fresh_inv, rfl, rfl⟩

/-- The two states differ in everything an earlier frame can leave. -/
theorem witness_StartForgetsTheEarlierFrame :
    ready.status.run ≠ .busy ∧
    ({ ready with status := finished.status, prev := 3#12, cursor := 4#32 } : State).status.run ≠ .busy ∧
    InputWritten ready ∧ ¬BadStart ready := by
  simp only [BadStart, InputWritten]; decide

/-- The two states differ above `INLEN` and above the frame. -/
theorem witness_FrameDecodeIsDeterministic :
    SameFrame fresh { fresh with
      input := bytes [0x84#8, 0xA1#8, 0x00#8, 0x77#8], plane := bytes [0#8, 0#8, 0#8, 0#8, 5#8] } ∧
    fresh.turns = [] ∧ ∃ t, core.run 1 fresh = .next t :=
  ⟨⟨rfl, rfl, rfl, rfl, rfl, rfl, rfl, rfl, rfl, rfl, by decide, by decide⟩, rfl,
    by obtain ⟨t, ht⟩ := witness_ParametersAreConstant; exact ⟨t, by rw [run_succ ht]; rfl⟩⟩

theorem witness_CodeWidthFollowsTheTableLength :
    Inv tight ∧ (tight.status.run = .busy → WidthLaw tight) ∧
    ((next? (step tight)).map fun t => t.status.run) = some .busy :=
  ⟨tight_inv, fun _ => by simp only [WidthLaw]; decide, by decide⟩

end Sys2Proof.Tests
end

/-! ## The model's scope (00_scope.md): byte memories, constant parameters, a total decoder step -/

section

namespace Sys2Proof.Machine

/-! ### Byte memories -/

/-- In a canonical memory a byte that is read from behind the first cell lies at a higher address. -/
theorem Memory.head_lt_of_read {k a : Nat} {b v : Byte} {m : Memory} (hw : Memory.wf ((k, b) :: m))
    (h : Memory.read m a = some v) : k < a := by
  by_contra hle
  have hnone : Memory.read m a = none := (Memory.read_eq_none_iff m a).2 fun c hc => by
    have := (List.pairwise_cons.1 hw).1 c hc
    simp only at this
    omega
  rw [hnone] at h
  cases h

/-- Rewriting the byte an address holds changes nothing: the canonical form is unique. -/
theorem Memory.write_of_read {m : Memory} {a : Nat} {v : Byte} (hw : Memory.wf m)
    (h : Memory.read m a = some v) : Memory.write m a v = m := by
  induction m with
  | nil => cases h
  | cons c m ih =>
    obtain ⟨k, b⟩ := c
    rw [Memory.read_cons] at h
    by_cases hk : k = a
    · rw [if_pos hk] at h
      cases h
      simp [Memory.write, hk]
    · rw [if_neg hk] at h
      have hlt := Memory.head_lt_of_read hw h
      rw [Memory.write, if_neg (by omega), if_neg (by omega), ih (List.pairwise_cons.1 hw).2 h]

/-! ### What a code leaves unchanged -/

/-- What no part of a code writes: the instance, the configuration, IN, the host's claim on the plane, and the outside
(10_state.md R42, 20_memory.md R62). -/
structure CodeFrame (s t : State) : Prop where
  params_eq : t.params = s.params
  cfg_eq : t.cfg = s.cfg
  input_eq : t.input = s.input
  planeValid_eq : t.planeValid = s.planeValid
  turns_eq : t.turns = s.turns
  seen_eq : t.seen = s.seen
  draws_eq : t.draws = s.draws

theorem CodeFrame.trans {s t u : State} (h : CodeFrame s t) (h' : CodeFrame t u) : CodeFrame s u where
  params_eq := h'.params_eq.trans h.params_eq
  cfg_eq := h'.cfg_eq.trans h.cfg_eq
  input_eq := h'.input_eq.trans h.input_eq
  planeValid_eq := h'.planeValid_eq.trans h.planeValid_eq
  turns_eq := h'.turns_eq.trans h.turns_eq
  seen_eq := h'.seen_eq.trans h.seen_eq
  draws_eq := h'.draws_eq.trans h.draws_eq

theorem codeFrame_codePreamble (s : State) : CodeFrame s (codePreamble s) := by
  constructor <;> simp

theorem codeFrame_rebuild (s : State) : CodeFrame s (rebuild s) := ⟨rfl, rfl, rfl, rfl, rfl, rfl, rfl⟩

theorem codeFrame_endFrame (k : EndKind) (s : State) : CodeFrame s (endFrame k s) :=
  ⟨rfl, rfl, rfl, rfl, rfl, rfl, rfl⟩

theorem codeFrame_raiseFault (f : Cause) (p : Nat) (s : State) : CodeFrame s (raiseFault f p s) :=
  ⟨rfl, rfl, rfl, rfl, rfl, rfl, rfl⟩

theorem codeFrame_mark (c : Code) (s : State) : CodeFrame s (mark c s) := ⟨rfl, rfl, rfl, rfl, rfl, rfl, rfl⟩

theorem codeFrame_learn {k : Byte} {s t : State} (h : learn k s = some t) : CodeFrame s t := by
  rw [learn_eq h]
  exact ⟨rfl, rfl, rfl, rfl, rfl, rfl, rfl⟩

theorem codeFrame_emit (e : List Byte) (s : State) : CodeFrame s (emit e s).1 := by
  rw [emit_eq]
  exact ⟨rfl, rfl, rfl, rfl, rfl, rfl, rfl⟩

theorem codeFrame_emitAndMark (e : List Byte) (c : Code) (p : Nat) (s : State) :
    CodeFrame s (emitAndMark e c p s) := by
  rcases emitAndMark_cases e c p s with h | h <;> rw [h]
  · exact (codeFrame_emit e s).trans (codeFrame_mark c _)
  · exact (codeFrame_emit e s).trans (codeFrame_raiseFault _ p _)

/-- The frame of every class of a code. -/
theorem exec_codeFrame {i : Instr} {s t : State} (hi : isCode i = true) (h : exec i s = .next t) : CodeFrame s t := by
  have hpre := codeFrame_codePreamble s
  rcases exec_code_cases hi h with rfl | rfl | rfl | ⟨k, u, e, c, hu, rfl⟩
  · exact hpre.trans (codeFrame_rebuild _)
  · exact hpre.trans (codeFrame_endFrame _ _)
  · exact hpre.trans (codeFrame_raiseFault _ _ _)
  · exact (hpre.trans (codeFrame_learn hu)).trans (codeFrame_emitAndMark e c _ u)

/-! ### The parameters -/

theorem decoderTurn_params {s t : State} (h : decoderTurn s = .next t) : t.params = s.params := by
  rcases decoderTurn_cases h with ⟨-, rfl⟩ | ⟨-, -, rfl⟩ | ⟨-, -, c, -, hc⟩
  · rfl
  · rfl
  · exact (exec_codeFrame (isCode_decodeCode _ c) hc).params_eq

theorem startFrame_params {s t : State} (h : startFrame s = .next t) : t.params = s.params := by
  rcases startFrame_cases h with ⟨-, rfl⟩ | ⟨-, -, rfl⟩ <;> rfl

theorem exec_host_params {i : Instr} {s t : State} (hi : isCode i = false) (h : exec i s = .next t) :
    t.params = s.params := by
  rcases exec_host_cases hi h with
    rfl | ⟨-, -, hstart⟩ | ⟨-, n, d, -, -, rfl⟩ | ⟨-, v, d, rfl⟩ | ⟨-, a, v, -, -, rfl⟩
  · rfl
  · exact startFrame_params hstart
  · rw [regWrite_keeps]
  · rfl
  · rfl

/-! ### The invariant and the schedule -/

/-- What holds while `BUSY` does not speak of the schedule. -/
theorem BusyInv.with_turns {s : State} (h : BusyInv s) (ts : List Turn) : BusyInv { s with turns := ts } where
  minCode_ok := h.minCode_ok
  width_ok := h.width_ok
  table_ok :=
    { length_ok := h.table_ok.length_ok
      literals := h.table_ok.literals
      sentinels := h.table_ok.sentinels
      grown := h.table_ok.grown
      elements := h.table_ok.elements }
  prev_ok := h.prev_ok
  fresh_ok := h.fresh_ok
  cursor_ok := h.cursor_ok
  bitPos_ok := h.bitPos_ok
  canvas_fits := h.canvas_fits
  input_fits := h.input_fits
  input_written := h.input_written
  plane_zeroed := h.plane_zeroed

/-- The invariant does not speak of the schedule. -/
theorem Inv.with_turns {s : State} (h : Inv s) (ts : List Turn) : Inv { s with turns := ts } where
  params_ok := h.params_ok
  input_ok := h.input_ok
  plane_ok := h.plane_ok
  status_ok := h.status_ok
  released := h.released
  plane_written := h.plane_written
  busy_ok := fun hb => (h.busy_ok hb).with_turns ts

/-! ### The decoder's step is total -/

/-- A fetch inside IN finds a code where every byte of the frame's input was written (41_fetch.md R102,
70_reset_and_hazards.md R173). -/
theorem fetch_code_of_written {s : State} (hw : ∀ a, a < s.cfg.inLen.toNat → (Memory.read s.input a).isSome = true)
    (he : exhausted s = false) : ∃ c, fetch s = .code c := by
  have hfits := fits_of_not_exhausted he
  obtain ⟨n, hn⟩ := extractCode_isSome (read := Memory.read s.input) (p := bitPos s) (w := s.codeSize.toNat)
    fun j hj => hw _ (by omega)
  rcases fetch_cases s with ⟨he', -⟩ | ⟨-, hnone, -⟩ | ⟨-, c, -, hc⟩
  · rw [he] at he'; cases he'
  · rw [hn] at hnone; cases hnone
  · exact ⟨_, hc⟩

/-- The outcomes of a decoder step (00_scope.md R14): the frame decode goes on, it has ended with exactly one of
`EOI` and `TRUNC`, or it has faulted on a code. -/
def DecoderOutcome (u : Status) : Prop :=
  u.run = .busy ∨ (u.run = .done ∧ u.eoi = !u.trunc ∧ u.cause = .none) ∨
    (u.run = .fault ∧ (u.cause = .badCode ∨ u.cause = .decodeOverrun))

/-- `end(kind)` of a frame decode sets one flag (43_control_codes.md R122). -/
theorem endFrame_outcome (k : EndKind) {s : State} (he : s.status.eoi = false) (ht : s.status.trunc = false)
    (hc : s.status.cause = .none) : DecoderOutcome (endFrame k s).status := by
  refine .inr (.inl ⟨rfl, ?_, hc⟩)
  cases k <;> simp [he, ht]

theorem emitAndMark_outcome (e : List Byte) (c : Code) (p : Nat) {s : State} (hb : s.status.run = .busy) :
    DecoderOutcome (emitAndMark e c p s).status := by
  have hemit : (emit e s).1.status = s.status := by rw [emit_eq]
  rcases emitAndMark_cases e c p s with h | h <;> rw [h]
  · left
    rw [mark_status, hemit, hb]
  · exact .inr (.inr ⟨rfl, .inr rfl⟩)

/-- A code of a frame decode always has a next state (30_encoding.md R75). -/
theorem exec_decodeCode_outcome {s : State} (hi : Inv s) (hb : s.status.run = .busy) (he : exhausted s = false)
    (c : Code) : ∃ t, exec (decodeCode (codeCtx s) c) s = .next t ∧ DecoderOutcome t.status := by
  obtain ⟨heoi, htrunc, hcause, -, -⟩ := status_busy hi hb
  rcases code_result s c (hi.busy_ok hb) (fits_of_not_exhausted he) with h | h | h | ⟨u, e, k, h, -, hu, -⟩ <;>
    refine ⟨_, h, ?_⟩
  · left
    simpa using hb
  · exact endFrame_outcome .eoi (by simpa using heoi) (by simpa using htrunc) (by simpa using hcause)
  · exact .inr (.inr ⟨rfl, .inl rfl⟩)
  · refine emitAndMark_outcome e c _ ?_
    rw [learn_eq hu]
    simpa using hb

theorem decoderTurn_outcome {s : State} (hi : Inv s) (hb : s.status.run = .busy) :
    ∃ t, decoderTurn s = .next t ∧ DecoderOutcome t.status := by
  rw [decoderTurn_busy hb]
  cases he : exhausted s with
  | true =>
    obtain ⟨heoi, htrunc, hcause, -, -⟩ := status_busy hi hb
    exact ⟨exhaustedInput s, by simp [fetch, he], endFrame_outcome .trunc heoi htrunc hcause⟩
  | false =>
    obtain ⟨c, hc⟩ := fetch_code_of_written (hi.busy_ok hb).input_written he
    rw [hc]
    exact exec_decodeCode_outcome hi hb he c

/-- START with written input has no refusal (40_host_commands.md R92): it faults with `BadParam` or begins. -/
theorem startFrame_of_written {s : State}
    (hw : ∀ a, a < s.cfg.inLen.toNat → (Memory.read s.input a).isSome = true) :
    startFrame s = .next (if badParams s = true then failStart (clearResults s) else launch (clearResults s)) := by
  unfold startFrame
  rw [if_pos ((Memory.covers_iff _ _).2 hw)]
  split <;> rfl

theorem execStart_not_busy {s : State} (h : s.status.run ≠ .busy) : exec .start s = startFrame s := if_neg h

end Sys2Proof.Machine

namespace Sys2Proof.Claims

open Sys2Proof.Machine

/-- Settles O49: a decoder step has a code wherever the input is not exhausted, every class of it answers, and START
with written input takes one of its two branches. -/
theorem decoderStepIsTotal : Obligations.DecoderStepIsTotal := by
  refine ⟨fun s hi hb hd => ?_, fun s _ hb hw => ?_⟩
  · rw [step_decoder hd]
    exact decoderTurn_outcome (hi.with_turns s.turns.tail) hb
  · refine ⟨_, (execStart_not_busy hb).trans (startFrame_of_written hw), ?_⟩
    by_cases hp : badParams s = true
    · rw [if_pos hp]
      exact .inr ⟨rfl, rfl⟩
    · rw [if_neg hp]
      exact .inl rfl

/-- Settles O45, by the case of the turn: the decoder's, a host access, hardware reset. -/
theorem parametersAreConstant : Obligations.ParametersAreConstant := by
  intro s t h
  rcases step_cases h with ⟨-, hdec⟩ | ⟨a, ts, -, hhost⟩ | ⟨ts, -, rfl⟩
  · exact (decoderTurn_params hdec).trans rfl
  · exact (exec_host_params (isCode_decodeAccess a) hhost).trans rfl
  · rfl

/-- Settles O46, from the law of a read after a write, the canonical form it keeps, and its uniqueness. -/
theorem readAfterWrite : Obligations.ReadAfterWrite := fun m a x v =>
  ⟨Memory.read_write m a x v, Memory.write_wf m a v, Memory.write_of_read⟩

end Sys2Proof.Claims

end

/-! ## The machine's invariant: reset meets it and every step keeps it (10_state.md R43) -/

section

namespace Sys2Proof.Machine

/-! ### What a frame decode carries -/

/-- The status registers of a frame decode under way: no end and no fault is recorded (10_state.md R23, R24). -/
def Status.running : Status :=
  { run := .busy, eoi := false, trunc := false, cause := .none, fbyte := 0#32, fbit := 0#3 }

theorem Inv.status_eq_running {s : State} (hi : Inv s) (hb : s.status.run = .busy) : s.status = Status.running := by
  obtain ⟨heoi, htrunc, hcause, hbyte, hbit⟩ := status_busy hi hb
  cases hs : s.status
  simp_all [Status.running]

theorem Status.running_ok : Status.ok Status.running := by simp [Status.ok, Status.running]

/-- The part of the invariant that holds between the parts of a code too: all but what the working registers and the
table satisfy. -/
structure DecodeInv (s : State) : Prop where
  params_ok : s.params.wf
  canvas_fits : canvas s ≤ s.params.planeCap
  input_ok : Memory.ok s.input s.params.inCap
  plane_ok : Memory.ok s.plane s.params.planeCap
  plane_some : PlaneSome s
  status_eq : s.status = Status.running

theorem Inv.decodeInv {s : State} (hi : Inv s) (hb : s.status.run = .busy) : DecodeInv s where
  params_ok := hi.params_ok
  canvas_fits := (hi.busy_ok hb).canvas_fits
  input_ok := hi.input_ok
  plane_ok := hi.plane_ok
  plane_some := hi.plane_written (hi.busy_ok hb).plane_zeroed
  status_eq := hi.status_eq_running hb

theorem DecodeInv.codePreamble {s : State} (h : DecodeInv s) : DecodeInv (codePreamble s) := by
  obtain ⟨hok, hsome⟩ := pre_plane s s.params.planeCap h.canvas_fits h.plane_ok h.plane_some
  exact ⟨by simpa using h.params_ok, by simpa using h.canvas_fits, by simpa using h.input_ok, by simpa using hok,
    hsome, by simpa using h.status_eq⟩

theorem DecodeInv.learn {s t : State} {k : Byte} (h : DecodeInv s) (hl : learn k s = some t) : DecodeInv t := by
  rw [learn_eq hl]
  exact ⟨h.params_ok, h.canvas_fits, h.input_ok, h.plane_ok, h.plane_some, h.status_eq⟩

theorem DecodeInv.emit {s : State} (h : DecodeInv s) (e : List Byte) : DecodeInv (emit e s).1 := by
  obtain ⟨hok, hsome⟩ := emit_plane e s s.params.planeCap h.canvas_fits h.plane_ok h.plane_some
  rw [emit_eq] at hok hsome ⊢
  exact ⟨h.params_ok, h.canvas_fits, h.input_ok, hok, hsome, h.status_eq⟩

theorem DecodeInv.mark {s : State} (h : DecodeInv s) (c : Code) : DecodeInv (mark c s) :=
  ⟨h.params_ok, h.canvas_fits, h.input_ok, h.plane_ok, h.plane_some, h.status_eq⟩

theorem DecodeInv.rebuild {s : State} (h : DecodeInv s) : DecodeInv (rebuild s) :=
  ⟨h.params_ok, h.canvas_fits, h.input_ok, h.plane_ok, h.plane_some, h.status_eq⟩

/-! ### How a part of a frame decode ends in the invariant -/

/-- At a step boundary of a frame decode that goes on. -/
theorem DecodeInv.inv {s : State} (h : DecodeInv s) (hB : BusyInv s) : Inv s where
  params_ok := h.params_ok
  input_ok := h.input_ok
  plane_ok := h.plane_ok
  status_ok := h.status_eq ▸ Status.running_ok
  released := fun hn => absurd (congrArg Status.run h.status_eq) hn
  plane_written := fun _ => h.plane_some
  busy_ok := fun _ => hB

/-- A normal end sets exactly one flag and releases the table (43_control_codes.md R122). -/
theorem DecodeInv.inv_endFrame {s : State} (h : DecodeInv s) (k : EndKind) : Inv (endFrame k s) where
  params_ok := h.params_ok
  input_ok := h.input_ok
  plane_ok := h.plane_ok
  status_ok := by cases k <;> simp [Status.ok, h.status_eq, Status.running]
  released := fun _ => ⟨rfl, rfl⟩
  plane_written := fun _ => h.plane_some
  busy_ok := fun hb => by cases hb

/-- A fault on a code records its cause and releases the table (60_exceptions.md R159). -/
theorem DecodeInv.inv_raiseFault {s : State} (h : DecodeInv s) {f : Cause} (p : Nat)
    (hf : f = .badCode ∨ f = .decodeOverrun) : Inv (raiseFault f p s) where
  params_ok := h.params_ok
  input_ok := h.input_ok
  plane_ok := h.plane_ok
  status_ok := by rcases hf with rfl | rfl <;> simp [Status.ok, h.status_eq, Status.running]
  released := fun _ => ⟨rfl, rfl⟩
  plane_written := fun _ => h.plane_some
  busy_ok := fun hb => by cases hb

/-- EMIT with MARK of a code in the table ends in the invariant, whether the sequence fits or not. -/
theorem DecodeInv.inv_emitAndMark {s : State} (h : DecodeInv s) (hB : BusyInv s) {c : Code} (e : List Byte) (p : Nat)
    (hc : c.toNat < tlen s) (h1 : c.toNat ≠ s.cfg.maxIdx.toNat + 1) (h2 : c.toNat ≠ s.cfg.maxIdx.toNat + 2) :
    Inv (emitAndMark e c p s) := by
  rcases emitAndMark_cases e c p s with hm | hm <;> rw [hm]
  · exact ((h.emit e).mark c).inv (busy_mark hB hc h1 h2)
  · exact (h.emit e).inv_raiseFault p (.inr rfl)

/-! ### The decoder's turn -/

/-- Every class of a code keeps the invariant. -/
theorem inv_exec_decodeCode {s t : State} {c : Code} (hi : Inv s) (hb : s.status.run = .busy)
    (he : exhausted s = false) (h : exec (decodeCode (codeCtx s) c) s = .next t) : Inv t := by
  have hfits := fits_of_not_exhausted he
  have hB := hi.busy_ok hb
  have hP := (hi.decodeInv hb).codePreamble
  rcases code_result s c hB hfits with hr | hr | hr | ⟨u, e, k, hr, hBu, hu, hentry, -, h1, h2⟩ <;>
    rw [hr] at h <;> cases h
  · exact hP.rebuild.inv (busy_rebuild (busy_pre s hB hfits))
  · exact hP.inv_endFrame _
  · exact hP.inv_raiseFault _ (.inl rfl)
  · have hcfg : u.cfg = s.cfg := ((codeFrame_codePreamble s).trans (codeFrame_learn hu)).cfg_eq
    exact (hP.learn hu).inv_emitAndMark hBu e _ (entry_lt hentry) (hcfg ▸ h1) (hcfg ▸ h2)

theorem inv_decoderTurn {s t : State} (hi : Inv s) (h : decoderTurn s = .next t) : Inv t := by
  rcases decoderTurn_cases h with ⟨-, rfl⟩ | ⟨hb, -, rfl⟩ | ⟨hb, he, c, -, hc⟩
  · exact hi
  · exact (hi.decodeInv hb).inv_endFrame .trunc
  · exact inv_exec_decodeCode hi hb he hc

/-! ### The host's accesses -/

/-- The invariant does not speak of what the host has seen. -/
theorem BusyInv.with_seen {s : State} (h : BusyInv s) (v : List Seen) (d : Nat) :
    BusyInv { s with seen := v, draws := d } where
  minCode_ok := h.minCode_ok
  width_ok := h.width_ok
  table_ok :=
    { length_ok := h.table_ok.length_ok
      literals := h.table_ok.literals
      sentinels := h.table_ok.sentinels
      grown := h.table_ok.grown
      elements := h.table_ok.elements }
  prev_ok := h.prev_ok
  fresh_ok := h.fresh_ok
  cursor_ok := h.cursor_ok
  bitPos_ok := h.bitPos_ok
  canvas_fits := h.canvas_fits
  input_fits := h.input_fits
  input_written := h.input_written
  plane_zeroed := h.plane_zeroed

theorem Inv.with_seen {s : State} (h : Inv s) (v : List Seen) (d : Nat) : Inv { s with seen := v, draws := d } :=
  ⟨h.params_ok, h.input_ok, h.plane_ok, h.status_ok, h.released, h.plane_written,
    fun hb => (h.busy_ok hb).with_seen v d⟩

/-- START's parameter check passes exactly when all four bounds hold (40_host_commands.md R92 step 2). -/
theorem badParams_eq_false_iff (s : State) : badParams s = false ↔
    (1 ≤ s.cfg.minCode.toNat ∧ s.cfg.minCode.toNat ≤ 11) ∧ canvas s ≤ s.params.planeCap ∧
      s.cfg.inLen.toNat ≤ s.params.inCap := by
  simp only [badParams, decide_eq_false_iff_not]
  omega

/-- START's fault keeps the invariant (60_exceptions.md R152). -/
theorem inv_failStart {s : State} (hi : Inv s) : Inv (failStart (clearResults s)) where
  params_ok := hi.params_ok
  input_ok := hi.input_ok
  plane_ok := hi.plane_ok
  status_ok := by simp [Status.ok]
  released := fun _ => ⟨rfl, rfl⟩
  plane_written := fun hv => by cases hv
  busy_ok := fun hb => by cases hb

/-- The table START and every clear code build (10_state.md R40). -/
theorem tableInv_rebuild (s : State) : TableInv (rebuild s) := by
  obtain ⟨hlen, hlit, hclr, heoi⟩ := initial_ok s.cfg.maxIdx
  have hmax := s.cfg.maxIdx.isLt
  have htlen : tlen (rebuild s) = s.cfg.maxIdx.toNat + 3 := hlen
  refine ⟨?_, hlit, ⟨hclr, heoi⟩, fun i e hi he => ?_, initial_elements s.cfg.maxIdx⟩
  · rw [htlen, rebuild_cfg]
    exact ⟨Nat.le_refl _, show _ ≤ 4096 by omega⟩
  · have hlt := entry_lt he
    rw [rebuild_cfg] at hi
    omega

/-- The initial code width fits its register where START accepts `MINCODE` (10_state.md R37). -/
theorem toNat_initialWidth {m : Byte} (h : m.toNat ≤ 11) : (BitVec.ofNat 4 (m.toNat + 1)).toNat = m.toNat + 1 := by
  simp only [BitVec.toNat_ofNat]
  omega

/-- What START builds is a state of a frame decode (40_host_commands.md R92 steps 3 and 4). -/
theorem busyInv_launch {s : State} (hp : badParams s = false)
    (hw : Memory.covers s.input s.cfg.inLen.toNat = true) : BusyInv (launch (clearResults s)) := by
  obtain ⟨hmin, hcanvas, hinput⟩ := (badParams_eq_false_iff s).1 hp
  have hwidth : (launch (clearResults s)).codeSize.toNat = s.cfg.minCode.toNat + 1 := toNat_initialWidth hmin.2
  exact {
    minCode_ok := hmin
    width_ok := by
      rw [hwidth]
      exact ⟨Nat.le_refl _, show _ ≤ 12 by omega⟩
    table_ok := tableInv_rebuild _
    prev_ok := fun h => by cases h
    fresh_ok := fun _ => ⟨(initial_ok s.cfg.maxIdx).1, hwidth⟩
    cursor_ok := Nat.zero_le _
    bitPos_ok := Nat.zero_le _
    canvas_fits := hcanvas
    input_fits := hinput
    input_written := (Memory.covers_iff _ _).1 hw
    plane_zeroed := rfl }

/-- START begins a frame decode with the plane of the canvas zeroed (40_host_commands.md R92 step 3). -/
theorem decodeInv_launch {s : State} (hi : Inv s) (hc : canvas s ≤ s.params.planeCap) :
    DecodeInv (launch (clearResults s)) where
  params_ok := hi.params_ok
  canvas_fits := hc
  input_ok := hi.input_ok
  plane_ok := Memory.zeroBelow_ok _ _ _ hi.plane_ok hc
  plane_some := fun a ha => by
    have hlt : a < canvas (clearResults s) := ha
    rw [launch_plane, Memory.read_zeroBelow, if_pos hlt]
    rfl
  status_eq := rfl

theorem inv_startFrame {s t : State} (hi : Inv s) (h : startFrame s = .next t) : Inv t := by
  rcases startFrame_cases h with ⟨-, rfl⟩ | ⟨hp, hw, rfl⟩
  · exact inv_failStart hi
  · exact (decodeInv_launch hi ((badParams_eq_false_iff s).1 hp).2.1).inv (busyInv_launch hp hw)

/-- A register write keeps the canvas, or ends the host's claim on the plane (40_host_commands.md R94). -/
theorem regWrite_claim (n : RegNum) (d : Word) (s : State) :
    (regWrite n d s).planeValid = false ∨
      (canvas (regWrite n d s) = canvas s ∧ (regWrite n d s).planeValid = s.planeValid) := by
  unfold regWrite
  split
  case h_3 => exact .inl rfl
  all_goals exact .inr ⟨rfl, rfl⟩

/-- A register write outside a frame decode keeps the invariant (40_host_commands.md R91). -/
theorem inv_regWrite {s : State} (hi : Inv s) (hb : s.status.run ≠ .busy) (n : RegNum) (d : Word) :
    Inv (regWrite n d s) := by
  have hclaim := regWrite_claim n d s
  rw [regWrite_keeps] at hclaim ⊢
  refine ⟨hi.params_ok, hi.input_ok, hi.plane_ok, hi.status_ok, hi.released, fun hv => ?_, fun hb' => absurd hb' hb⟩
  rcases hclaim with hnone | ⟨hcanvas, hvalid⟩
  · rw [hnone] at hv
    cases hv
  · rw [hcanvas]
    exact hi.plane_written (hvalid ▸ hv)

/-- A byte of IN written outside a frame decode keeps the invariant (40_host_commands.md R93). -/
theorem inv_inputWrite {s : State} (hi : Inv s) (hb : s.status.run ≠ .busy) {a : Addr} (v : Byte)
    (ha : a.toNat < s.params.inCap) : Inv { s with input := Memory.write s.input a.toNat v } :=
  ⟨hi.params_ok, Memory.write_ok _ _ _ _ hi.input_ok ha, hi.plane_ok, hi.status_ok, hi.released, hi.plane_written,
    fun hb' => absurd hb' hb⟩

theorem inv_exec_host {i : Instr} {s t : State} (hi : Inv s) (hcode : isCode i = false) (h : exec i s = .next t) :
    Inv t := by
  rcases exec_host_cases hcode h with
    rfl | ⟨-, -, hstart⟩ | ⟨hb, n, d, -, -, rfl⟩ | ⟨-, v, d, rfl⟩ | ⟨hb, a, v, -, ha, rfl⟩
  · exact hi
  · exact inv_startFrame hi hstart
  · exact inv_regWrite hi hb n d
  · exact hi.with_seen _ d
  · exact inv_inputWrite hi hb v ha

/-! ### Reset -/

/-- The state right after hardware reset, with capacities in range, meets the invariant (10_state.md R43, R44). -/
theorem inv_resetOf {p : Params} (hp : p.wf) : Inv (State.resetOf p) where
  params_ok := hp
  input_ok := Memory.ok_nil _
  plane_ok := Memory.ok_nil _
  status_ok := by simp [Status.ok, State.resetOf, Status.reset]
  released := fun _ => ⟨rfl, rfl⟩
  plane_written := fun hv => by cases hv
  busy_ok := fun hb => by cases hb

theorem inv_hardwareReset {s : State} (hi : Inv s) : Inv (hardwareReset s) :=
  ((inv_resetOf hi.params_ok).with_turns s.turns).with_seen s.seen s.draws

end Sys2Proof.Machine

namespace Sys2Proof.Claims

open Sys2Proof.Machine

/-- Settles O48, by the case of the turn: the decoder's, a host access, hardware reset. -/
theorem everyStepKeepsTheInvariant : Obligations.EveryStepKeepsTheInvariant := by
  intro s t hi h
  rcases step_cases h with ⟨-, hdec⟩ | ⟨a, ts, -, hhost⟩ | ⟨ts, -, rfl⟩
  · exact inv_decoderTurn (hi.with_turns s.turns.tail) hdec
  · exact inv_exec_host (hi.with_turns ts) (isCode_decodeAccess a) hhost
  · exact inv_hardwareReset (hi.with_turns ts)

/-- Settles O47: the default parameters are in range, and reset with any such parameters meets the invariant. -/
theorem resetMeetsTheInvariant : Obligations.ResetMeetsTheInvariant :=
  inv_resetOf (by decide)

end Sys2Proof.Claims

end

/-! ## What a frame decode depends on and what a code leaves unchanged (10_state.md R42, R43, R44) -/

section

namespace Sys2Proof.Machine

/-! ### What the frame decode cannot tell apart -/

theorem SameFrame.canvas_eq {s t : State} (h : SameFrame s t) : canvas s = canvas t := by
  rw [canvas, canvas, h.cfg_eq]

theorem SameFrame.bitPos_eq {s t : State} (h : SameFrame s t) : bitPos s = bitPos t := by
  rw [bitPos, bitPos, h.bytePos_eq, h.bitOff_eq]

theorem SameFrame.tlen_eq {s t : State} (h : SameFrame s t) : tlen s = tlen t := congrArg List.length h.table_eq

theorem SameFrame.entry_eq {s t : State} (h : SameFrame s t) (i : Nat) : entry s i = entry t i := by
  rw [entry, entry, h.table_eq]

theorem SameFrame.firstOf_eq {s t : State} (h : SameFrame s t) (i : Nat) : firstOf s i = firstOf t i := by
  rw [firstOf, firstOf, h.entry_eq]

theorem SameFrame.codeCtx_eq {s t : State} (h : SameFrame s t) : codeCtx s = codeCtx t := by
  rw [codeCtx, codeCtx, h.cfg_eq, h.hasPrev_eq, h.tlen_eq]

theorem SameFrame.exhausted_eq {s t : State} (h : SameFrame s t) : exhausted s = exhausted t := by
  rw [exhausted, exhausted, h.cfg_eq, h.bitPos_eq, h.codeSize_eq]

/-- A fetch reads IN below `INLEN` only (41_fetch.md R101, R102). -/
theorem SameFrame.fetch_eq {s t : State} (h : SameFrame s t) : fetch s = fetch t := by
  cases he : exhausted s with
  | true => rw [fetch, fetch, if_pos he, if_pos (h.exhausted_eq ▸ he)]
  | false =>
    have hfits := fits_of_not_exhausted he
    have hread : extractCode (Memory.read s.input) (bitPos s) s.codeSize.toNat =
        extractCode (Memory.read t.input) (bitPos s) s.codeSize.toNat :=
      extractCode_congr fun j hj => h.input_eq _ (by omega)
    rw [fetch, fetch, ← h.exhausted_eq, hread, h.bitPos_eq, h.codeSize_eq]

/-! ### The parts of a code, from two such states -/

theorem SameFrame.advance {s t : State} (h : SameFrame s t) : SameFrame (advance s) (advance t) :=
  { h with
    bytePos_eq := by rw [advance_eq, advance_eq, h.bitPos_eq, h.codeSize_eq]
    bitOff_eq := by rw [advance_eq, advance_eq, h.bitPos_eq, h.codeSize_eq] }

/-- A byte stored in the frame. -/
theorem SameFrame.planeWrite {s t : State} (h : SameFrame s t) (a : Nat) (v : Byte) :
    SameFrame (planeWrite a v s) (planeWrite a v t) :=
  { h with
    plane_eq := fun x hx => by
      rw [planeWrite_plane, planeWrite_plane, Memory.read_write, Memory.read_write, h.plane_eq x hx] }

theorem SameFrame.stepCursor {s t : State} (h : SameFrame s t) : SameFrame (stepCursor s) (stepCursor t) :=
  { h with cursor_eq := congrArg (· + 1#32) h.cursor_eq }

theorem SameFrame.passOutside {s t : State} (h : SameFrame s t) : SameFrame (passOutside s) (passOutside t) := by
  unfold Machine.passOutside
  rw [h.cfg_eq, h.cursor_eq]
  split
  · exact (h.planeWrite _ _).stepCursor
  · exact h.stepCursor

theorem SameFrame.skipLoop {s t : State} (h : SameFrame s t) (n : Nat) : SameFrame (skipLoop n s) (skipLoop n t) := by
  induction n generalizing s t with
  | zero => exact h
  | succ n ih =>
    unfold Machine.skipLoop
    rw [h.cursor_eq, h.canvas_eq, h.cfg_eq]
    split
    · exact ih h.passOutside
    · exact h

theorem SameFrame.codePreamble {s t : State} (h : SameFrame s t) : SameFrame (codePreamble s) (codePreamble t) := by
  have hadv := h.advance
  unfold Machine.codePreamble skip
  rw [hadv.canvas_eq, hadv.cursor_eq]
  exact hadv.skipLoop _

theorem SameFrame.rebuild {s t : State} (h : SameFrame s t) : SameFrame (rebuild s) (rebuild t) :=
  { h with
    codeSize_eq := by rw [rebuild_codeSize, rebuild_codeSize, h.cfg_eq]
    hasPrev_eq := rfl
    table_eq := by rw [rebuild_table, rebuild_table, h.cfg_eq] }

theorem SameFrame.endFrame {s t : State} (h : SameFrame s t) (k : EndKind) : SameFrame (endFrame k s) (endFrame k t) :=
  { h with
    status_eq := by rw [endFrame_status, endFrame_status, h.status_eq]
    hasPrev_eq := rfl
    table_eq := rfl }

theorem SameFrame.raiseFault {s t : State} (h : SameFrame s t) (f : Cause) (p : Nat) :
    SameFrame (raiseFault f p s) (raiseFault f p t) :=
  { h with
    status_eq := by rw [raiseFault_status, raiseFault_status, h.status_eq]
    hasPrev_eq := rfl
    table_eq := rfl }

theorem SameFrame.mark {s t : State} (h : SameFrame s t) (c : Code) : SameFrame (mark c s) (mark c t) :=
  { h with hasPrev_eq := rfl, prev_eq := rfl }

theorem SameFrame.append {s t : State} (h : SameFrame s t) (e : List Byte) : SameFrame (append e s) (append e t) :=
  { h with table_eq := congrArg (· ++ [e]) h.table_eq }

theorem SameFrame.grow {s t : State} (h : SameFrame s t) : SameFrame (grow s) (grow t) := by
  have hsize : (Machine.grow s).codeSize = (Machine.grow t).codeSize := BitVec.eq_of_toNat_eq (by
    rw [grow_codeSize_toNat, grow_codeSize_toNat, h.tlen_eq, h.codeSize_eq, h.params_eq])
  rw [grow_eq s, grow_eq t]
  exact { h with codeSize_eq := hsize }

/-- What a data code learns in one of the states it learns in the other (44_data_codes.md R130). -/
theorem SameFrame.learn {s t u : State} (h : SameFrame s t) {k : Byte} (hu : learn k s = some u) :
    ∃ v, learn k t = some v ∧ SameFrame u v := by
  rcases learn_cases hu with ⟨hn, rfl⟩ | ⟨hp, ht, e, he, rfl⟩
  · exact ⟨t, learn_none (by rwa [← h.hasPrev_eq, ← h.tlen_eq]), h⟩
  · exact ⟨_, learn_some (h.hasPrev_eq ▸ hp) (h.tlen_eq ▸ ht) (by rw [← h.entry_eq, ← h.prev_eq, he]),
      (h.append _).grow⟩

/-- EMIT fits in both states or in neither, and leaves two such states (44_data_codes.md R138). -/
theorem SameFrame.emit {s t : State} (h : SameFrame s t) (e : List Byte) :
    (emit e s).2 = (emit e t).2 ∧ SameFrame (emit e s).1 (emit e t).1 := by
  induction e generalizing s t with
  | nil => exact ⟨rfl, h⟩
  | cons b bs ih =>
    unfold Machine.emit
    rw [h.cursor_eq, h.canvas_eq]
    split
    · exact ih (h.planeWrite _ _).stepCursor
    · exact ⟨rfl, h⟩

/-- EMIT with MARK by whether the sequence fitted (44_data_codes.md R138, R139). -/
theorem emitAndMark_eq (e : List Byte) (c : Code) (p : Nat) (s : State) : emitAndMark e c p s =
    if (emit e s).2 = true then mark c (emit e s).1 else raiseFault .decodeOverrun p (emit e s).1 := by
  unfold emitAndMark
  rcases emit e s with ⟨t, _ | _⟩ <;> rfl

theorem SameFrame.emitAndMark {s t : State} (h : SameFrame s t) (e : List Byte) (c : Code) (p : Nat) :
    SameFrame (emitAndMark e c p s) (emitAndMark e c p t) := by
  obtain ⟨hfits, hsame⟩ := h.emit e
  rw [emitAndMark_eq, emitAndMark_eq, hfits]
  split
  · exact hsame.mark c
  · exact hsame.raiseFault _ p

/-! ### The data codes as chains of look-ups -/

/-- `LIT` as its append, then EMIT with MARK (44_data_codes.md R131). -/
theorem execLit_eq (c : Code) (s : State) : execLit c s =
    (learn (BitVec.setWidth 8 c) (codePreamble s)).elim (.fault .tableSlot)
      fun u => .next (emitAndMark [BitVec.setWidth 8 c] c (bitPos s) u) := by
  unfold execLit
  cases learn (BitVec.setWidth 8 c) (codePreamble s) <;> rfl

/-- `REF` as the look-up of its first index, its append, then its entry (44_data_codes.md R132). -/
theorem execRef_eq (c : Code) (s : State) : execRef c s =
    (firstOf (codePreamble s) c.toNat).elim (.fault .tableSlot)
      fun k => (learn k (codePreamble s)).elim (.fault .tableSlot) (emitEntry c (bitPos s)) := by
  unfold execRef
  cases firstOf (codePreamble s) c.toNat with
  | none => rfl
  | some k =>
    simp only [Option.elim_some]
    cases learn k (codePreamble s) <;> rfl

/-- `KWK` as `REF`, with the first index of the previous entry (44_data_codes.md R133). -/
theorem execKwk_eq (c : Code) (s : State) : execKwk c s =
    (firstOf (codePreamble s) s.prev.toNat).elim (.fault .tableSlot)
      fun k => (learn k (codePreamble s)).elim (.fault .tableSlot) (emitEntry c (bitPos s)) := by
  unfold execKwk
  cases firstOf (codePreamble s) s.prev.toNat with
  | none => rfl
  | some k =>
    simp only [Option.elim_some]
    cases learn k (codePreamble s) <;> rfl

/-- An append stops where `PREV` names no slot (log 10). -/
theorem learn_eq_none {s : State} (k : Byte) (hp : s.hasPrev = true) (ht : tlen s < tableCap)
    (he : entry s s.prev.toNat = none) : learn k s = none := by
  rw [learn, if_pos ⟨hp, ht⟩, he, Option.map_none]

/-- There is no first index where the slot is not in use or holds the empty sequence (log 10). -/
theorem firstOf_eq_none {s : State} {i : Nat} (h : s.table[i]? = none ∨ s.table[i]? = some []) :
    firstOf s i = none := by
  rcases h with h | h <;> rw [firstOf, entry, h] <;> rfl

/-! ### The classes of a code, from two such states -/

/-- Where the first outcome is a next state so is the second, and the frame decode cannot tell the two apart. -/
def AnswersAlike (o o' : Host.Outcome State Fault Refusal) : Prop :=
  ∀ s', o = .next s' → ∃ t', o' = .next t' ∧ SameFrame s' t'

theorem AnswersAlike.next {s t : State} (h : SameFrame s t) : AnswersAlike (.next s) (.next t) := by
  rintro _ ⟨⟩
  exact ⟨t, rfl, h⟩

theorem AnswersAlike.fault (r : Fault) (o : Host.Outcome State Fault Refusal) : AnswersAlike (.fault r) o := by
  rintro _ ⟨⟩

theorem AnswersAlike.refused (r : Refusal) (o : Host.Outcome State Fault Refusal) : AnswersAlike (.refused r) o := by
  rintro _ ⟨⟩

theorem SameFrame.emitEntry {s t : State} (h : SameFrame s t) (c : Code) (p : Nat) :
    AnswersAlike (emitEntry c p s) (emitEntry c p t) := by
  unfold Machine.emitEntry
  rw [h.entry_eq]
  split
  · exact .fault _ _
  · exact .next (h.emitAndMark _ c p)

/-- What follows an append, from two such states. -/
theorem SameFrame.learn_elim {s t : State} (h : SameFrame s t) (k : Byte)
    {f f' : State → Host.Outcome State Fault Refusal} (hf : ∀ u v, SameFrame u v → AnswersAlike (f u) (f' v)) :
    AnswersAlike ((Machine.learn k s).elim (.fault .tableSlot) f)
      ((Machine.learn k t).elim (.fault .tableSlot) f') := by
  cases hu : Machine.learn k s with
  | none => exact .fault _ _
  | some u =>
    obtain ⟨v, hv, hsame⟩ := h.learn hu
    rw [hv]
    exact hf u v hsame

/-- What follows the look-up of a first index, which is the same in two such states. -/
theorem SameFrame.firstOf_elim {s t : State} (h : SameFrame s t) (i : Nat)
    {f f' : Byte → Host.Outcome State Fault Refusal} (hf : ∀ k, AnswersAlike (f k) (f' k)) :
    AnswersAlike ((firstOf s i).elim (.fault .tableSlot) f) ((firstOf t i).elim (.fault .tableSlot) f') := by
  rw [← h.firstOf_eq]
  cases firstOf s i with
  | none => exact .fault _ _
  | some k => exact hf k

/-- Every class of a code answers alike from two such states. -/
theorem SameFrame.exec {s t : State} (h : SameFrame s t) {i : Instr} (hi : isCode i = true) :
    AnswersAlike (exec i s) (exec i t) := by
  have hpre := h.codePreamble
  have hpos := h.bitPos_eq
  cases i with
  | clr => exact .next hpre.rebuild
  | eoi => exact .next (hpre.endFrame _)
  | lit c =>
    show AnswersAlike (execLit c s) (execLit c t)
    rw [execLit_eq, execLit_eq, hpos]
    exact hpre.learn_elim _ fun u v huv => .next (huv.emitAndMark _ c _)
  | ref c =>
    show AnswersAlike (execRef c s) (execRef c t)
    rw [execRef_eq, execRef_eq, hpos]
    exact hpre.firstOf_elim _ fun k => hpre.learn_elim k fun u v huv => huv.emitEntry c _
  | kwk c =>
    show AnswersAlike (execKwk c s) (execKwk c t)
    rw [execKwk_eq, execKwk_eq, hpos, h.prev_eq]
    exact hpre.firstOf_elim _ fun k => hpre.learn_elim k fun u v huv => huv.emitEntry c _
  | bad c =>
    show AnswersAlike (execBad c s) (execBad c t)
    rw [execBad, execBad, hpos]
    exact .next (hpre.raiseFault _ _)
  | start => cases hi
  | regwr n d => cases hi
  | regrd n => cases hi
  | inwr a v => cases hi
  | plrd a => cases hi

/-! ### The decoder's steps, from two such states -/

theorem SameFrame.decoderTurn {s t : State} (h : SameFrame s t) : AnswersAlike (decoderTurn s) (decoderTurn t) := by
  by_cases hb : s.status.run = .busy
  · rw [decoderTurn_busy hb, decoderTurn_busy (h.status_eq ▸ hb), ← h.fetch_eq, ← h.codeCtx_eq]
    cases fetch s with
    | exhausted => exact .next (h.endFrame .trunc)
    | unwritten => exact .refused _ _
    | code c => exact h.exec (isCode_decodeCode _ c)
  · rw [decoderTurn_not_busy hb, decoderTurn_not_busy (h.status_eq ▸ hb)]
    exact .next h

/-- With an empty schedule every step is the decoder's turn (log 1). -/
theorem step_of_no_turns {s : State} (h : s.turns = []) : step s = decoderTurn s := by
  unfold step
  rw [h]

/-- The frame of the decoder's turn. -/
theorem decoderTurn_codeFrame {s t : State} (h : decoderTurn s = .next t) : CodeFrame s t := by
  rcases decoderTurn_cases h with ⟨-, rfl⟩ | ⟨-, -, rfl⟩ | ⟨-, -, c, -, hc⟩
  · exact ⟨rfl, rfl, rfl, rfl, rfl, rfl, rfl⟩
  · exact codeFrame_endFrame .trunc s
  · exact exec_codeFrame (isCode_decodeCode _ c) hc

/-- Undisturbed decoder steps from two such states. -/
theorem SameFrame.run {s t s' : State} {k : Nat} (h : SameFrame s t) (hs : s.turns = []) (ht : t.turns = [])
    (hrun : core.run k s = .next s') : ∃ t', core.run k t = .next t' ∧ SameFrame s' t' := by
  induction k generalizing s t with
  | zero =>
    cases hrun
    exact ⟨t, rfl, h⟩
  | succ k ih =>
    obtain ⟨u, hu, hrun'⟩ := run_next hrun
    rw [step_of_no_turns hs] at hu
    obtain ⟨v, hv, huv⟩ := h.decoderTurn u hu
    rw [run_succ ((step_of_no_turns ht).trans hv)]
    exact ih huv ((decoderTurn_codeFrame hu).turns_eq.trans hs) ((decoderTurn_codeFrame hv).turns_eq.trans ht) hrun'

/-! ### What a code writes of the plane, and what a host access does while `BUSY` -/

/-- What fetch and SKIP leave on the plane (42_cursor_skip.md R112). -/
theorem read_codePreamble_plane (s : State) (a : Nat) : Memory.read (codePreamble s).plane a =
    if s.cfg.disposal = 1#3 ∧ s.cursor.toNat ≤ a ∧ a < (codePreamble s).cursor.toNat then some s.cfg.tidx
    else Memory.read s.plane a :=
  (codePreamble_skipTo s).painted a

/-- After SKIP a code's own case moves the cursor and writes the plane as EMIT of some sequence does; the control codes
and `BAD` as EMIT of the empty one. -/
theorem exec_code_emitTo {i : Instr} {s t : State} (hi : isCode i = true) (h : exec i s = .next t) :
    ∃ e, EmitTo e (codePreamble s) { codePreamble s with cursor := t.cursor, plane := t.plane } := by
  have hnone := emit_emitTo [] (codePreamble s)
  rcases exec_code_cases hi h with rfl | rfl | rfl | ⟨k, u, e, c, hu, rfl⟩
  · exact ⟨[], hnone⟩
  · exact ⟨[], hnone⟩
  · exact ⟨[], hnone⟩
  · have hemit := emit_emitTo e u
    have hsame : (emitAndMark e c (bitPos s) u).cursor = (emit e u).1.cursor ∧
        (emitAndMark e c (bitPos s) u).plane = (emit e u).1.plane := by
      rcases emitAndMark_cases e c (bitPos s) u with hm | hm <;> rw [hm] <;> exact ⟨rfl, rfl⟩
    rw [hsame.1, hsame.2]
    rw [learn_eq hu] at hemit ⊢
    exact ⟨e, rfl, hemit.cursor, hemit.written, hemit.wf⟩

/-- While `BUSY` a host access only adds to what the host has seen (40_host_commands.md R90 to R94). -/
theorem exec_host_busy {i : Instr} {s t : State} (hi : isCode i = false) (hb : s.status.run = .busy)
    (h : exec i s = .next t) : ∃ v d, t = { s with seen := v, draws := d } := by
  rcases exec_host_cases hi h with rfl | ⟨hn, -⟩ | ⟨hn, -⟩ | ⟨-, v, d, rfl⟩ | ⟨hn, -⟩
  · exact ⟨_, _, rfl⟩
  · exact absurd hb hn
  · exact absurd hb hn
  · exact ⟨_, d, rfl⟩
  · exact absurd hb hn

end Sys2Proof.Machine

namespace Sys2Proof.Claims

open Sys2Proof.Machine

/-- Settles O53, by induction on the number of steps: the relation is kept by the decoder's turn, part by part of a
code. -/
theorem frameDecodeIsDeterministic : Obligations.FrameDecodeIsDeterministic :=
  fun _ _ _ _ h hs ht hrun => h.run hs ht hrun

/-- Settles O33: each look-up that finds nothing is the fault. -/
theorem missingSlotsStop : Obligations.MissingSlotsStop := by
  intro c s
  refine ⟨fun hp ht he => ?_, fun he => ?_, fun he => ?_⟩
  · show execLit c s = _
    rw [execLit_eq, learn_eq_none (s := codePreamble s) _ (by simpa using hp) (by simpa [tlen] using ht)
      (by rw [codePreamble_entry, codePreamble_prev, entry, he])]
    rfl
  · show execRef c s = _
    rw [execRef_eq, codePreamble_firstOf, firstOf_eq_none he]
    rfl
  · show execKwk c s = _
    rw [execKwk_eq, codePreamble_firstOf, firstOf_eq_none he]
    rfl

/-- Settles O42: a code's frame covers the decoder's turn, and while `BUSY` a host access only adds to what the host
has seen. -/
theorem busyFreezesTheConfiguration : Obligations.BusyFreezesTheConfiguration := by
  intro s t hb hnr h
  rcases step_cases h with ⟨-, hdec⟩ | ⟨a, ts, -, hhost⟩ | ⟨ts, hts, -⟩
  · have hframe := decoderTurn_codeFrame hdec
    exact ⟨hframe.cfg_eq, hframe.input_eq, hframe.params_eq⟩
  · obtain ⟨v, d, rfl⟩ := exec_host_busy (s := { s with turns := ts }) (isCode_decodeAccess a) hb hhost
    exact ⟨rfl, rfl, rfl⟩
  · exact absurd hts (hnr ts)

/-- Settles O40, from the frame of every class, the positions SKIP passes and the positions the class's own case
writes. -/
theorem codesLeaveEverythingElse : Obligations.CodesLeaveEverythingElse := by
  intro i s t hi h
  have hframe := exec_codeFrame hi h
  obtain ⟨e, hemit⟩ := exec_code_emitTo hi h
  have hwritten : ∀ a, Memory.read t.plane a =
      if (codePreamble s).cursor.toNat ≤ a ∧ a < t.cursor.toNat then e[a - (codePreamble s).cursor.toNat]?
      else Memory.read (codePreamble s).plane a := hemit.written
  have hpre := codePreamble_cursor_ge s
  have hcursor : t.cursor.toNat = (codePreamble s).cursor.toNat +
      min e.length (canvas s - (codePreamble s).cursor.toNat) := by simpa using hemit.cursor
  refine ⟨hframe.params_eq, hframe.cfg_eq, hframe.input_eq, hframe.planeValid_eq, hframe.turns_eq, hframe.seen_eq,
    hframe.draws_eq, fun a ha => ?_, fun a hd ha => ?_, fun hs => ?_⟩
  · rw [hwritten, if_neg (by omega), read_codePreamble_plane, if_neg (by omega)]
  · have hne : s.cfg.disposal ≠ 1#3 := fun h1 => hd (by rw [h1]; rfl)
    rw [hwritten, if_neg (by omega), read_codePreamble_plane, if_neg fun hp => hne hp.1]
  · have hle := codePreamble_cursor_le s hs
    exact ⟨by omega, show t.cursor.toNat ≤ canvas s by omega⟩

/-- Settles O1, register by register; no memory byte has a value, so the plane read draws. -/
theorem resetStateIsAsSpecified : Obligations.ResetStateIsAsSpecified :=
  ⟨rfl, rfl, rfl, rfl, rfl, rfl, rfl, rfl, rfl, by decide, fun _ => rfl, fun _ => rfl, rfl, fun _ => rfl⟩

end Sys2Proof.Claims

end

/-! ## The input memory (20_memory.md R50, R51, R62): who writes a byte of IN, and where the write stops -/

section

namespace Sys2Proof.Machine

/-- While `BUSY` the host has no write of IN (20_memory.md R62, log 7). -/
theorem exec_inwr_busy {s : State} (a : Addr) (v : Byte) (hb : s.status.run = .busy) :
    exec (.inwr a v) s = .refused .inWriteWhileBusy := if_pos hb

/-- An address at or above `IN_CAP` does not exist (20_memory.md R50, log 8). -/
theorem exec_inwr_outside {s : State} {a : Addr} (v : Byte) (hb : s.status.run ≠ .busy)
    (ha : s.params.inCap ≤ a.toNat) : exec (.inwr a v) s = .fault .inAddress :=
  (if_neg hb).trans (if_pos ha)

/-- The only access that is an `INWR` is the host's write of IN (30_encoding.md R76). -/
theorem decodeAccess_eq_inwr {x : Access} {a : Addr} {v : Byte} (h : decodeAccess x = .inwr a v) :
    x = .inWrite a v := by
  cases x with
  | regWrite n d =>
    simp only [decodeAccess] at h
    split at h <;> cases h
  | regRead n => cases h
  | inWrite b w =>
    cases h
    rfl
  | planeRead b => cases h

/-- START never writes IN (40_host_commands.md R92). -/
theorem startFrame_input {s t : State} (h : startFrame s = .next t) : t.input = s.input := by
  rcases startFrame_cases h with ⟨-, rfl⟩ | ⟨-, -, rfl⟩ <;> rfl

/-- What a host operation does to IN (20_memory.md R51): nothing, or one `INWR` while not `BUSY`. -/
theorem exec_host_input {i : Instr} {s t : State} (hi : isCode i = false) (h : exec i s = .next t) :
    t.input = s.input ∨
      (s.status.run ≠ .busy ∧ ∃ a v, i = .inwr a v ∧ t.input = Memory.write s.input a.toNat v) := by
  rcases exec_host_cases hi h with
    rfl | ⟨-, -, hstart⟩ | ⟨-, n, d, -, -, rfl⟩ | ⟨-, v, d, rfl⟩ | ⟨hb, a, v, hinwr, -, rfl⟩
  · exact .inl rfl
  · exact .inl (startFrame_input hstart)
  · left
    rw [regWrite_keeps]
  · exact .inl rfl
  · exact .inr ⟨hb, a, v, hinwr, rfl⟩

/-- What a step does to IN (20_memory.md R51, R62; logs 1 and 12): nothing, hardware reset, or the host's write of one
byte while not `BUSY`. -/
theorem step_input {s t : State} (h : step s = .next t) :
    t.input = s.input ∨ (∃ ts, s.turns = .reset :: ts) ∨
      (s.status.run ≠ .busy ∧ ∃ a v ts, s.turns = .host (.inWrite a v) :: ts ∧
        t.input = Memory.write s.input a.toNat v) := by
  rcases step_cases h with ⟨-, hdec⟩ | ⟨x, ts, hts, hhost⟩ | ⟨ts, hts, -⟩
  · exact .inl (decoderTurn_codeFrame hdec).input_eq
  · rcases exec_host_input (isCode_decodeAccess x) hhost with hsame | ⟨hb, a, v, hx, hwrite⟩
    · exact .inl hsame
    · cases decodeAccess_eq_inwr hx
      exact .inr (.inr ⟨hb, a, v, ts, hts, hwrite⟩)
  · exact .inr (.inl ⟨ts, hts⟩)

end Sys2Proof.Machine

namespace Sys2Proof.Claims

open Sys2Proof.Machine

/-- Settles O44: a byte that changed rules out the steps that keep IN, and the one write changes no byte but its
own. -/
theorem onlyTheHostWritesInput : Obligations.OnlyTheHostWritesInput := by
  intro s t h hnr x hx
  rcases step_input h with hsame | ⟨ts, hts⟩ | ⟨hb, a, v, ts, hts, hwrite⟩
  · rw [hsame] at hx
    exact absurd rfl hx
  · exact absurd hts (hnr ts)
  · have hxa : x = a.toNat := by
      by_contra hne
      rw [hwrite, Memory.read_write_other _ _ _ _ hne] at hx
      exact hx rfl
    refine ⟨a, v, ts, hts, hxa, ?_, hb⟩
    rw [hwrite, hxa, Memory.read_write_same]

/-- Settles O8, from the two tests before the store of `INWR`. -/
theorem inwrStopsOutsideItsRange : Obligations.InwrStopsOutsideItsRange :=
  fun a v _ => ⟨exec_inwr_busy a v, exec_inwr_outside v⟩

end Sys2Proof.Claims

end

/-! ## The encoding (30_encoding.md): classes of a code, listings, host accesses -/

section

namespace Sys2Proof

/-! ### Instructions and their encodings -/

/-- The code value of a sentinel fits a code (30_encoding.md R74 rows 1 and 2). -/
theorem toNat_sentinel (m : Byte) {k : Nat} (hk : k ≤ 2) : (BitVec.ofNat 12 (m.toNat + k)).toNat = m.toNat + k := by
  have hm := m.isLt
  rw [BitVec.toNat_ofNat]
  omega

theorem decodeAccess_start {n : RegNum} {d : Word} (h : n = 0#4 ∧ d.getLsbD 0 = true) :
    decodeAccess (.regWrite n d) = .start := if_pos h

theorem decodeAccess_regwr {n : RegNum} {d : Word} (h : ¬(n = 0#4 ∧ d.getLsbD 0 = true)) :
    decodeAccess (.regWrite n d) = .regwr n d := if_neg h

/-- `REGWR` is well formed exactly where the write is not `START` (30_encoding.md R76). -/
theorem wf_regwr_iff (p : Params) (x : CodeCtx) (n : RegNum) (d : Word) :
    Instr.wf p x (.regwr n d) = true ↔ ¬(n = 0#4 ∧ d.getLsbD 0 = true) := by
  rw [Instr.wf, Bool.not_eq_true', Bool.and_eq_false_iff, beq_eq_false_iff_ne, not_and_or, Bool.not_eq_true]

/-- A well-formed instruction is read back from its encoding, class by class. -/
theorem decode_encode {p : Params} {x : CodeCtx} {i : Instr} (h : Instr.wf p x i = true) :
    decode x (encode x i) = i := by
  cases i with
  | clr => exact decodeCode_clr (toNat_sentinel x.maxIdx (k := 1) (by omega))
  | eoi => exact decodeCode_eoi (toNat_sentinel x.maxIdx (k := 2) (by omega))
  | lit c => exact decodeCode_lit (of_decide_eq_true h)
  | ref c =>
    obtain ⟨hfirst, hlt⟩ := of_decide_eq_true h
    exact decodeCode_ref hfirst hlt
  | kwk c =>
    obtain ⟨hfirst, heq, hprev, -⟩ := of_decide_eq_true h
    exact decodeCode_kwk hfirst heq hprev
  | bad c =>
    obtain ⟨hfirst, hbad⟩ := of_decide_eq_true h
    exact decodeCode_bad hfirst hbad
  | start => exact decodeAccess_start ⟨rfl, show (1#32).getLsbD 0 = true by decide⟩
  | regwr n d => exact decodeAccess_regwr ((wf_regwr_iff p x n d).1 h)
  | regrd n => rfl
  | inwr a v => rfl
  | plrd a => rfl

/-- A code is a well-formed instruction of its class, and that instruction's code value. -/
theorem wf_and_encode_decodeCode (p : Params) (x : CodeCtx) (c : Code) :
    Instr.wf p x (decodeCode x c) = true ∧ encode x (decodeCode x c) = .code c := by
  have hsentinel : ∀ v, c.toNat = v → Encoded.code (BitVec.ofNat 12 v) = .code c := by
    rintro v rfl
    rw [BitVec.ofNat_toNat, BitVec.setWidth_eq]
  rcases code_cases x c with h | h | h | ⟨h, hlt⟩ | ⟨h, heq, hprev⟩ | ⟨h, hbad⟩
  · rw [decodeCode_clr h]
    exact ⟨rfl, hsentinel _ h⟩
  · rw [decodeCode_eoi h]
    exact ⟨rfl, hsentinel _ h⟩
  · rw [decodeCode_lit h]
    exact ⟨decide_eq_true h, rfl⟩
  · rw [decodeCode_ref h hlt]
    exact ⟨decide_eq_true ⟨h, hlt⟩, rfl⟩
  · rw [decodeCode_kwk h heq hprev]
    exact ⟨decide_eq_true ⟨h, heq, hprev, heq ▸ c.isLt⟩, rfl⟩
  · rw [decodeCode_bad h hbad]
    exact ⟨decide_eq_true ⟨h, hbad⟩, rfl⟩

/-! ### The bits of an assembled listing (30_encoding.md R81) -/

/-- The number with the bits `f 0` to `f (n - 1)`, summed as `packByte` does. -/
def bitSum (f : Nat → Bool) (n : Nat) : Nat := (List.range n).foldl (fun acc i => acc + (f i).toNat * 2 ^ i) 0

theorem bitSum_succ (f : Nat → Bool) (n : Nat) : bitSum f (n + 1) = 2 ^ n * (f n).toNat + bitSum f n := by
  rw [bitSum, List.range_succ, List.foldl_append, Nat.mul_comm, Nat.add_comm]
  rfl

theorem bitSum_lt (f : Nat → Bool) (n : Nat) : bitSum f n < 2 ^ n := by
  induction n with
  | zero => exact Nat.one_pos
  | succ n ih =>
    have hbit : 2 ^ n * (f n).toNat ≤ 2 ^ n * 1 := Nat.mul_le_mul_left _ (Bool.toNat_le _)
    rw [bitSum_succ, Nat.pow_succ]
    omega

theorem testBit_bitSum (f : Nat → Bool) {n i : Nat} (hi : i < n) : (bitSum f n).testBit i = f i := by
  induction n with
  | zero => omega
  | succ n ih =>
    rw [bitSum_succ, Nat.testBit_two_pow_mul_add _ (bitSum_lt f n)]
    by_cases hin : i < n
    · rw [if_pos hin, ih hin]
    · obtain rfl : i = n := by omega
      rw [if_neg hin, Nat.sub_self]
      cases f i <;> rfl

theorem getLsbD_packByte (bits : List Bool) (k : Nat) {i : Nat} (hi : i < 8) :
    (packByte bits k).getLsbD i = bits.getD (8 * k + i) false := by
  have hbyte : packByte bits k = BitVec.ofNat 8 (bitSum (fun i => bits.getD (8 * k + i) false) 8) := rfl
  rw [hbyte, BitVec.getLsbD_ofNat, testBit_bitSum _ hi, decide_eq_true hi, Bool.true_and]

theorem length_packBits (bits : List Bool) : (packBits bits).length = (bits.length + 7) / 8 := by
  rw [packBits, List.length_map, List.length_range]

/-- Stream bit `q` of the bytes of a bit stream is bit `q` of that stream, and 0 beyond its end. -/
theorem streamBit_packBits {bits : List Bool} {q : Nat} (hq : q < 8 * (packBits bits).length) :
    streamBit (fun a => (packBits bits)[a]?) q = some (bits.getD q false) := by
  have hbyte : (packBits bits)[q / 8]? = some (packByte bits (q / 8)) := by
    rw [length_packBits] at hq
    rw [packBits, List.getElem?_map, List.getElem?_range (by omega)]
    rfl
  rw [streamBit, hbyte, Option.map_some, getLsbD_packByte _ _ (by omega), Nat.div_add_mod]

theorem length_codeBits (c w : Nat) : (codeBits c w).length = w := by
  rw [codeBits, List.length_map, List.length_range]

theorem length_listingBits (codes : List (Nat × Nat)) : (listingBits codes).length = (codes.map Prod.snd).sum := by
  rw [listingBits, List.length_flatMap]
  simp only [length_codeBits]

/-- The bits of a code stand in the stream after the bits of the codes before it. -/
theorem listingBits_getD (before after : List (Nat × Nat)) (c : Nat) {w j : Nat} (hj : j < w) :
    (listingBits (before ++ (c, w) :: after)).getD ((before.map Prod.snd).sum + j) false = c.testBit j := by
  have hsplit : listingBits (before ++ (c, w) :: after) =
      listingBits before ++ (codeBits c w ++ listingBits after) := by
    simp [listingBits]
  rw [hsplit, ← length_listingBits, List.getD_append_right _ _ _ _ (by omega), Nat.add_sub_cancel_left,
    List.getD_append _ _ _ _ (by rwa [length_codeBits]), codeBits]
  simp [hj]

/-- A code of a listing is read back where it starts, with its own width. -/
theorem extractCode_assemble (before after : List (Nat × Nat)) {c w : Nat} (hc : c < 2 ^ w) :
    extractCode (fun a => (assemble (before ++ (c, w) :: after))[a]?) (before.map Prod.snd).sum w = some c := by
  refine extractCode_of_bits _ _ _ _ hc fun j hj => ?_
  have hlen : (before.map Prod.snd).sum + w ≤ (listingBits (before ++ (c, w) :: after)).length := by
    rw [length_listingBits]
    simp
  rw [assemble, streamBit_packBits (by rw [length_packBits]; omega), listingBits_getD _ _ _ hj]

end Sys2Proof

namespace Sys2Proof.Machine

/-! ### The fetched code -/

/-- A fetch inside written IN finds a code below `2^CODE_SIZE` whose bit `j` is stream bit `BITPOS + j`
(30_encoding.md R71, 41_fetch.md R102). -/
theorem fetch_bits {s : State} (hw : ∀ a, a < s.cfg.inLen.toNat → (Memory.read s.input a).isSome = true)
    (hsize : s.codeSize.toNat ≤ 12) (hfits : bitPos s + s.codeSize.toNat ≤ 8 * s.cfg.inLen.toNat) :
    ∃ c : Code, fetch s = .code c ∧ c.toNat < 2 ^ s.codeSize.toNat ∧
      ∀ j, j < s.codeSize.toNat → streamBit (Memory.read s.input) (bitPos s + j) = some (c.getLsbD j) := by
  obtain ⟨n, hn⟩ := extractCode_isSome (read := Memory.read s.input) (p := bitPos s) (w := s.codeSize.toNat)
    fun j hj => hw _ (by omega)
  have hexh : exhausted s ≠ true := fun he => by
    have := (exhausted_iff s).1 he
    omega
  have hlt := extractCode_lt hn
  have hnat : (BitVec.ofNat 12 n).toNat = n :=
    Nat.mod_eq_of_lt (hlt.trans_le (Nat.pow_le_pow_right (by omega) hsize))
  refine ⟨BitVec.ofNat 12 n, ?_, hnat.symm ▸ hlt, fun j hj => ?_⟩
  · rw [fetch, if_neg hexh, hn]
  · rw [extractCode_testBit hn j hj, BitVec.getLsbD, hnat]

end Sys2Proof.Machine

namespace Sys2Proof.Claims

open Sys2Proof.Machine

/-! ### The rows of the table of classes (30_encoding.md R74) -/

/-- The row of 30_encoding.md R74 that gives an instruction, none for the host operations. -/
def classRow : Instr → Option (Fin 6)
  | .clr => some 0
  | .eoi => some 1
  | .lit _ => some 2
  | .ref _ => some 3
  | .kwk _ => some 4
  | .bad _ => some 5
  | .start | .regwr _ _ | .regrd _ | .inwr _ _ | .plrd _ => none

theorem classRow_rowInstr (c : Code) : ∀ r, classRow (rowInstr c r) = some r
  | 0 | 1 | 2 | 3 | 4 | 5 => rfl

/-- The rows are read in any order (30_encoding.md R74): each row's condition alone gives the class. -/
theorem decodeCode_of_rowCondition {x : CodeCtx} {c : Code} (hx : x.maxIdx.toNat + 3 ≤ x.tlen) :
    ∀ {r}, rowCondition x c.toNat r → decodeCode x c = rowInstr c r
  | 0, h => decodeCode_clr h
  | 1, h => decodeCode_eoi h
  | 2, h => decodeCode_lit h
  | 3, ⟨hfirst, hlt⟩ => decodeCode_ref hfirst hlt
  | 4, ⟨heq, hprev, _⟩ => decodeCode_kwk (heq ▸ hx) heq hprev
  | 5, h => decodeCode_bad (by rcases h with h | ⟨h, -⟩ <;> omega) h

theorem exists_rowCondition (x : CodeCtx) (c : Code) : ∃ r, rowCondition x c.toNat r := by
  rcases code_cases x c with h | h | h | h | ⟨-, heq, hprev⟩ | ⟨-, h⟩
  · exact ⟨0, h⟩
  · exact ⟨1, h⟩
  · exact ⟨2, h⟩
  · exact ⟨3, h⟩
  · exact ⟨4, heq, hprev, heq ▸ c.isLt⟩
  · exact ⟨5, h⟩

/-! ### The statements -/

/-- Settles O16: each class and each access is read back by its own decoding rule, and each class's condition is what
makes its instruction well formed. -/
theorem decodeOfEncodeIsTheInstruction : Obligations.DecodeOfEncodeIsTheInstruction :=
  ⟨fun _ _ _ => decode_encode, wf_and_encode_decodeCode⟩

/-- Settles O17: a stream bit of the assembled bytes is the listing's bit at that place, 0 beyond the last code. -/
theorem assembledListingsAreReadBack : Obligations.AssembledListingsAreReadBack := by
  intro codes hcodes
  refine ⟨?_, ?_, fun q hend hq => ?_⟩
  · rintro before after c w rfl
    exact extractCode_assemble before after (hcodes (c, w) (by simp))
  · rw [assemble, length_packBits, length_listingBits]
  · rw [assemble] at hq ⊢
    rw [streamBit_packBits hq, List.getD_eq_default _ _ (by rwa [length_listingBits])]

/-- Settles O12: the bits of the code read from IN are the stream bits, and the fetch position is all that moves. -/
theorem fetchAssemblesTheCode : Obligations.FetchAssemblesTheCode := by
  refine ⟨advance_eq, fun s hw hsize hfits => ⟨bitPos_advance s hfits, ?_⟩⟩
  obtain ⟨c, hfetch, hlt, hbits⟩ := fetch_bits hw hsize hfits
  refine ⟨c, hfetch, hlt, fun j hj => ?_⟩
  obtain ⟨b, hread, hb⟩ := Option.map_eq_some_iff.1 (hbits j hj)
  exact ⟨b, hread, hb.symm⟩

/-- Settles O14: some row's condition holds, every such row is the class the decoder gives, and it gives one. -/
theorem classesAreDisjointAndCover : Obligations.ClassesAreDisjointAndCover := by
  intro x c hx
  obtain ⟨r, hr⟩ := exists_rowCondition x c
  have hdec := decodeCode_of_rowCondition hx hr
  refine ⟨r, hr, fun r' hr' => ?_, hdec⟩
  have hsame : rowInstr c r' = rowInstr c r := (decodeCode_of_rowCondition hx hr').symm.trans hdec
  exact Option.some.inj (by rw [← classRow_rowInstr c r', hsame, classRow_rowInstr])

/-- Settles O11: bit 0 of a word is its parity, and a register's number is 0 for register 0 only. -/
theorem hostTurnRunsTheAccess : Obligations.HostTurnRunsTheAccess := by
  have hbit : ∀ d : Word, d.getLsbD 0 = true ↔ d.toNat % 2 = 1 := fun d => by
    rw [getLsbD_eq_decide, Nat.pow_zero, Nat.div_one, decide_eq_true_iff]
  refine ⟨fun d hd => decodeAccess_start ⟨rfl, (hbit d).2 hd⟩, fun n d hnd => decodeAccess_regwr ?_, fun _ => rfl,
    fun _ _ => rfl, fun _ => rfl, fun s a ts hts => ?_⟩
  · rintro ⟨rfl, hd⟩
    exact hnd ⟨rfl, (hbit d).1 hd⟩
  · rw [step, hts]
    rfl

/-- Settles O15, by evaluating the decoder on the words. -/
theorem writtenOutWordsDecode : Obligations.WrittenOutWordsDecode := by
  unfold Obligations.WrittenOutWordsDecode
  decide

end Sys2Proof.Claims

end

/-! ## The closed form of the code width (30_encoding.md R73) -/

section

namespace Sys2Proof.Claims

open Sys2Proof.Machine

/-- The width R73 gives for the initial width `m` and the sum `n` of `TLEN` and `GROW_BIAS`. -/
def closedWidth (m n : Nat) : Nat := min 12 (max m (Nat.size n))

/-- The closed form at the initial table: the initial width, where the table is below its threshold. -/
theorem closedWidth_initial {m n : Nat} (hm : m ≤ 12) (hn : n < 2 ^ m) : closedWidth m n = m := by
  have hsize := Nat.size_le.2 hn
  unfold closedWidth
  omega

/-- The closed form moves as GROW does (44_data_codes.md R136): by one exactly at a power of two, below 12. -/
theorem closedWidth_succ (m n : Nat) : closedWidth m (n + 1) =
    if n + 1 = 2 ^ closedWidth m n ∧ closedWidth m n < 12 then closedWidth m n + 1 else closedWidth m n := by
  have hmono : Nat.size n ≤ Nat.size (n + 1) := Nat.size_le_size (Nat.le_succ n)
  obtain ⟨w, hw⟩ : ∃ w, closedWidth m n = w := ⟨_, rfl⟩
  rw [hw]
  rw [closedWidth] at hw ⊢
  by_cases h12 : w < 12
  · have hlt : n < 2 ^ w := Nat.size_le.1 (by omega)
    by_cases hpow : n + 1 = 2 ^ w
    · have hsize : Nat.size (n + 1) = w + 1 := hpow ▸ Nat.size_pow
      rw [if_pos ⟨hpow, h12⟩]
      omega
    · have hsize : Nat.size (n + 1) ≤ w := Nat.size_le.2 (by omega)
      rw [if_neg fun h => hpow h.1]
      omega
  · rw [if_neg fun h => h12 h.2]
    omega

/-- The initial state of a frame decode and of every clear code has the initial width (40_host_commands.md R92,
43_control_codes.md R120). -/
theorem widthLaw_rebuild {s : State} (hm : s.cfg.minCode.toNat ≤ 11) : WidthLaw (rebuild s) := by
  have hwidth : (rebuild s).codeSize.toNat = s.cfg.minCode.toNat + 1 := toNat_initialWidth hm
  have htable : (rebuild s).table.length = s.cfg.maxIdx.toNat + 3 := (initial_ok s.cfg.maxIdx).1
  refine ⟨fun hbelow => ?_, fun _ => hwidth⟩
  rw [rebuild_cfg, rebuild_params] at hbelow
  rw [hwidth, htable]
  exact (closedWidth_initial (by omega) (show _ + s.params.growBias.val < _ by omega)).symm

/-- An append with GROW keeps the closed form: GROW's threshold is the closed form's (44_data_codes.md R136). A table
that starts at or above its threshold never meets it. -/
theorem WidthLaw.grow_append {s : State} (h : WidthLaw s) (hlen : s.cfg.maxIdx.toNat + 3 ≤ tlen s) (e : List Byte) :
    WidthLaw (grow (append e s)) := by
  obtain ⟨hclosed, hfixed⟩ := h
  have hbias := s.params.growBias.isLt
  have hpow := Nat.two_pow_pos s.codeSize.toNat
  have htlen : (append e s).table.length = tlen s + 1 := by simp [tlen]
  have hthreshold : tlen s + 1 = 2 ^ s.codeSize.toNat - s.params.growBias.val ↔
      tlen s + s.params.growBias.val + 1 = 2 ^ s.codeSize.toNat := by omega
  have hgrow : (grow (append e s)).codeSize.toNat =
      if tlen s + s.params.growBias.val + 1 = 2 ^ s.codeSize.toNat ∧ s.codeSize.toNat < 12 then
        s.codeSize.toNat + 1 else s.codeSize.toNat := by
    rw [grow_codeSize_toNat, tlen, htlen, append_params, append_codeSize]
    simp only [hthreshold]
  rw [WidthLaw, grow_cfg, grow_params, grow_table, append_cfg, append_params, htlen, hgrow]
  refine ⟨fun hbelow => ?_, fun habove => ?_⟩
  · have hwidth : s.codeSize.toNat = closedWidth (s.cfg.minCode.toNat + 1) (tlen s + s.params.growBias.val) :=
      hclosed hbelow
    rw [hwidth, ← closedWidth_succ, Nat.add_right_comm]
    rfl
  · have hwidth := hfixed habove
    rw [if_neg fun hmeets => by rw [hwidth] at hmeets; omega]
    exact hwidth

/-- What a data code adds keeps the closed form. -/
theorem WidthLaw.learn {s u : State} {k : Byte} (h : WidthLaw s) (hlen : s.cfg.maxIdx.toNat + 3 ≤ tlen s)
    (hl : learn k s = some u) : WidthLaw u := by
  rcases learn_cases hl with ⟨-, rfl⟩ | ⟨-, -, e, -, rfl⟩
  · exact h
  · exact h.grow_append hlen _

/-- The law speaks of the configuration, the instance, the width and the length of the table only. -/
theorem WidthLaw.of_eq {s t : State} (h : WidthLaw s) (hcfg : t.cfg = s.cfg) (hparams : t.params = s.params)
    (hwidth : t.codeSize = s.codeSize) (htable : t.table = s.table) : WidthLaw t := by
  rwa [WidthLaw, hcfg, hparams, hwidth, htable]

/-- A code that leaves the frame decode under way keeps the closed form: `CLR` starts it again, a data code appends, and
every other end is an end of the frame decode. -/
theorem widthLaw_exec_decodeCode {s t : State} {c : Code} (hi : Inv s) (hb : s.status.run = .busy) (h : WidthLaw s)
    (hexec : exec (decodeCode (codeCtx s) c) s = .next t) (hbt : t.status.run = .busy) : WidthLaw t := by
  have hB := hi.busy_ok hb
  have hpre : WidthLaw (codePreamble s) := h.of_eq (by simp) (by simp) (by simp) (by simp)
  rcases exec_code_cases (isCode_decodeCode _ c) hexec with rfl | rfl | rfl | ⟨k, u, e, c, hu, rfl⟩
  · exact widthLaw_rebuild (by simpa using hB.minCode_ok.2)
  · cases hbt
  · cases hbt
  · have hlearn := hpre.learn (by simpa using hB.table_ok.length_ok.1) hu
    rcases emitAndMark_cases e c (bitPos s) u with hm | hm <;> rw [hm] at hbt ⊢
    · rw [emit_eq]
      exact hlearn.of_eq rfl rfl rfl rfl
    · cases hbt

/-- The decoder's turn keeps the closed form. -/
theorem widthLaw_decoderTurn {s t : State} (hi : Inv s) (h : s.status.run = .busy → WidthLaw s)
    (hturn : decoderTurn s = .next t) (hbt : t.status.run = .busy) : WidthLaw t := by
  rcases decoderTurn_cases hturn with ⟨-, rfl⟩ | ⟨-, -, rfl⟩ | ⟨hb, -, c, -, hexec⟩
  · exact h hbt
  · cases hbt
  · exact widthLaw_exec_decodeCode hi hb (h hb) hexec hbt

/-- START establishes the closed form where it begins a frame decode (40_host_commands.md R92). -/
theorem widthLaw_startFrame {s t : State} (hstart : startFrame s = .next t) (hbt : t.status.run = .busy) :
    WidthLaw t := by
  rcases startFrame_cases hstart with ⟨-, rfl⟩ | ⟨hp, -, rfl⟩
  · cases hbt
  · exact widthLaw_rebuild ((badParams_eq_false_iff s).1 hp).1.2

/-- A host access keeps the closed form: while `BUSY` it touches nothing of it, and else only START begins a frame
decode. -/
theorem widthLaw_exec_host {i : Instr} {s t : State} (hcode : isCode i = false)
    (h : s.status.run = .busy → WidthLaw s) (hexec : exec i s = .next t) (hbt : t.status.run = .busy) : WidthLaw t := by
  rcases exec_host_cases hcode hexec with
    rfl | ⟨-, -, hstart⟩ | ⟨hn, n, d, -, -, rfl⟩ | ⟨-, v, d, rfl⟩ | ⟨hn, a, v, -, -, rfl⟩
  · exact h hbt
  · exact widthLaw_startFrame hstart hbt
  · rw [regWrite_keeps] at hbt
    exact absurd hbt hn
  · exact (h hbt).of_eq rfl rfl rfl rfl
  · exact absurd hbt hn

/-- Settles O54, by the case of the turn: the decoder's, a host access, hardware reset. -/
theorem codeWidthFollowsTheTableLength : Obligations.CodeWidthFollowsTheTableLength := by
  intro s t hi h hstep hbt
  have hturns : ∀ ts, s.status.run = .busy → WidthLaw { s with turns := ts } :=
    fun _ hb => (h hb).of_eq rfl rfl rfl rfl
  rcases step_cases hstep with ⟨-, hdec⟩ | ⟨a, ts, -, hhost⟩ | ⟨ts, -, rfl⟩
  · exact widthLaw_decoderTurn (hi.with_turns s.turns.tail) (hturns _) hdec hbt
  · exact widthLaw_exec_host (s := { s with turns := ts }) (isCode_decodeAccess a) (hturns ts) hhost hbt
  · cases hbt

end Sys2Proof.Claims

end

/-! ## The host operations (40_host_commands.md R90 to R94): registers, START, and the two memory ports -/

section

namespace Sys2Proof.Machine

open Claims (BadStart InputWritten)

/-! ### The register file, read (10_state.md R22 to R36) -/

/-- Two half-word fields, as a number. -/
theorem toNat_append_halves (hi lo : BitVec 16) : (hi ++ lo : Word).toNat = lo.toNat + 65536 * hi.toNat := by
  rw [toNat_append_add]
  omega

theorem toNat_regRead_status (s : State) : (regRead s 1#4).toNat =
    s.status.run.bits.toNat + 4 * s.status.eoi.toNat + 8 * s.status.trunc.toNat := by
  simp only [regRead, toNat_append_add, toNat_ofBool_eq, BitVec.toNat_ofNat]
  omega

theorem toNat_regRead_cause (s : State) :
    (regRead s 2#4).toNat = s.status.cause.bits.toNat + 256 * s.status.fbit.toNat := by
  simp only [regRead, toNat_append_add, BitVec.toNat_ofNat]
  omega

theorem toNat_regRead_lzwcfg (s : State) :
    (regRead s 5#4).toNat = s.cfg.minCode.toNat + 256 * s.cfg.maxIdx.toNat := by
  simp only [regRead, toNat_append_add, BitVec.toNat_ofNat]
  omega

theorem toNat_regRead_frame (s : State) : (regRead s 9#4).toNat =
    s.cfg.disposal.toNat + 8 * s.cfg.tflag.toNat + 256 * s.cfg.tidx.toNat + 65536 * s.cfg.bgidx.toNat := by
  simp only [regRead, toNat_append_add, toNat_ofBool_eq, BitVec.toNat_ofNat]
  omega

theorem toNat_regRead_dstate (s : State) : (regRead s 12#4).toNat =
    s.codeSize.toNat + 16 * s.hasPrev.toNat + 32 * s.bitOff.toNat + 256 * s.prev.toNat := by
  simp only [regRead, toNat_append_add, toNat_ofBool_eq, BitVec.toNat_ofNat]
  omega

/-- The field of `TLEN` has 13 bits, so a full table is read as 4096 (10_state.md R37). -/
theorem toNat_regRead_tlen {s : State} (h : tlen s ≤ 4096) : (regRead s 13#4).toNat = tlen s := by
  simp only [regRead, toNat_append_add, BitVec.toNat_ofNat]
  omega

/-! ### The register file, written (40_host_commands.md R91) -/

/-! The named fields of a word are the numbers R91 speaks of. -/

theorem ofNat_eq_lowField (d : Word) (n : Nat) : BitVec.ofNat n d.toNat = d.extractLsb' 0 n := by
  rw [extractLsb'_eq_ofNat, Nat.pow_zero, Nat.div_one]

theorem ofNat_div_eq_byteField (d : Word) (n : Nat) : BitVec.ofNat n (d.toNat / 256) = d.extractLsb' 8 n :=
  (extractLsb'_eq_ofNat d 8 n).symm

theorem ofNat_div_eq_halfField (d : Word) (n : Nat) : BitVec.ofNat n (d.toNat / 65536) = d.extractLsb' 16 n :=
  (extractLsb'_eq_ofNat d 16 n).symm

theorem decide_div_eq_flag (d : Word) : decide (d.toNat / 8 % 2 = 1) = d.getLsbD 3 := (getLsbD_eq_decide d 3).symm

/-- Bit 0 of a word is its parity. -/
theorem getLsbD_zero_iff (d : Word) : d.getLsbD 0 = true ↔ d.toNat % 2 = 1 := by
  rw [getLsbD_eq_decide, Nat.pow_zero, Nat.div_one, decide_eq_true_iff]

theorem regWrite_lzwcfg (d : Word) (s : State) : regWrite 5#4 d s =
    { s with cfg := { s.cfg with
      minCode := BitVec.ofNat 8 d.toNat, maxIdx := BitVec.ofNat 8 (d.toNat / 256) } } := by
  rw [ofNat_eq_lowField, ofNat_div_eq_byteField]
  rfl

theorem regWrite_canvas (d : Word) (s : State) : regWrite 6#4 d s =
    { s with
      cfg := { s.cfg with cw := BitVec.ofNat 16 d.toNat, ch := BitVec.ofNat 16 (d.toNat / 65536) }
      planeValid := false } := by
  rw [ofNat_eq_lowField, ofNat_div_eq_halfField]
  rfl

theorem regWrite_imgpos (d : Word) (s : State) : regWrite 7#4 d s =
    { s with cfg := { s.cfg with
      left := BitVec.ofNat 16 d.toNat, top := BitVec.ofNat 16 (d.toNat / 65536) } } := by
  rw [ofNat_eq_lowField, ofNat_div_eq_halfField]
  rfl

theorem regWrite_imgsize (d : Word) (s : State) : regWrite 8#4 d s =
    { s with cfg := { s.cfg with
      iw := BitVec.ofNat 16 d.toNat, ih := BitVec.ofNat 16 (d.toNat / 65536) } } := by
  rw [ofNat_eq_lowField, ofNat_div_eq_halfField]
  rfl

theorem regWrite_frame (d : Word) (s : State) : regWrite 9#4 d s =
    { s with cfg := { s.cfg with
      disposal := BitVec.ofNat 3 d.toNat, tflag := decide (d.toNat / 8 % 2 = 1)
      tidx := BitVec.ofNat 8 (d.toNat / 256), bgidx := BitVec.ofNat 8 (d.toNat / 65536) } } := by
  rw [ofNat_eq_lowField, decide_div_eq_flag, ofNat_div_eq_byteField, ofNat_div_eq_halfField]
  rfl

/-- A register that is not RW ignores the write. -/
theorem regWrite_notRW {n : RegNum} (d : Word) (s : State) (h : n.toNat < 4 ∨ 9 < n.toNat) :
    regWrite n d s = s := by
  unfold regWrite
  split
  case h_7 => rfl
  all_goals omega

/-- No register but `CANVAS` touches the host's claim on the plane (40_host_commands.md R94; log 6). -/
theorem regWrite_planeValid {n : RegNum} (d : Word) (s : State) (h : n ≠ 6#4) :
    (regWrite n d s).planeValid = s.planeValid := by
  unfold regWrite
  split
  case h_3 hn => exact absurd (BitVec.eq_of_toNat_eq hn) h
  all_goals rfl

/-- While `BUSY` every register write is ignored. -/
theorem exec_regwr_busy {s : State} (n : RegNum) (d : Word) (hb : s.status.run = .busy) :
    exec (.regwr n d) s = .next s := if_pos hb

/-- A write of register 0 with bit 0 set is `START`. -/
theorem exec_regwr_start {s : State} {d : Word} (hb : s.status.run ≠ .busy) (hd : d.getLsbD 0 = true) :
    exec (.regwr 0#4 d) s = exec .start s :=
  ((if_neg hb).trans ((if_pos rfl).trans (if_pos hd))).trans (execStart_not_busy hb).symm

/-- A write of register 0 with bit 0 clear does nothing. -/
theorem exec_regwr_ctrl {s : State} {d : Word} (hb : s.status.run ≠ .busy) (hd : ¬d.getLsbD 0 = true) :
    exec (.regwr 0#4 d) s = .next s :=
  (if_neg hb).trans ((if_pos rfl).trans (if_neg hd))

/-- A write of any other register stores its named fields. -/
theorem exec_regwr_store {s : State} {n : RegNum} (d : Word) (hb : s.status.run ≠ .busy) (hn : n ≠ 0#4) :
    exec (.regwr n d) s = .next (regWrite n d s) :=
  (if_neg hb).trans (if_neg hn)

/-! ### START (40_host_commands.md R92) -/

theorem exec_start_busy {s : State} (hb : s.status.run = .busy) : exec .start s = .next s := if_pos hb

/-- START's parameter check is the refusal of R92 step 2. -/
theorem badParams_iff (s : State) : badParams s = true ↔ BadStart s := decide_eq_true_iff

theorem exec_start_bad {s : State} (hb : s.status.run ≠ .busy) (h : BadStart s) :
    exec .start s = .next (failStart (clearResults s)) :=
  (execStart_not_busy hb).trans (if_pos ((badParams_iff s).2 h))

theorem exec_start_launch {s : State} (hb : s.status.run ≠ .busy) (h : ¬BadStart s) (hw : InputWritten s) :
    exec .start s = .next (launch (clearResults s)) := by
  rw [execStart_not_busy hb, startFrame_of_written hw, if_neg (mt (badParams_iff s).1 h)]

/-- The host has a claim on the plane after START exactly when it launched (40_host_commands.md R94; log 6). -/
theorem startFrame_planeValid {s t : State} (h : startFrame s = .next t) : t.planeValid = true ↔ ¬BadStart s := by
  rw [← badParams_iff]
  rcases startFrame_cases h with ⟨hp, rfl⟩ | ⟨hp, -, rfl⟩ <;> simp [hp]

/-! ### The memory ports (40_host_commands.md R93, R94) -/

theorem exec_inwr_store {s : State} {a : Addr} (v : Byte) (hb : s.status.run ≠ .busy)
    (ha : a.toNat < s.params.inCap) :
    exec (.inwr a v) s = .next { s with input := Memory.write s.input a.toNat v } :=
  (if_neg hb).trans (if_neg (Nat.not_le.2 ha))

theorem exec_plrd_defined {s : State} {a : Addr} {v : Byte} (h : planeByte a s = some v) :
    exec (.plrd a) s = .next { s with seen := .plane a v :: s.seen } := by
  simp only [exec, execPlrd, h]

theorem exec_plrd_free {s : State} {a : Addr} (h : planeByte a s = none) :
    exec (.plrd a) s = .next { s with
      seen := .plane a (Config.freePlaneByte s.draws a.toNat) :: s.seen, draws := s.draws + 1 } := by
  simp only [exec, execPlrd, h]

/-! ### The host's claim on the plane (log 6) -/

/-- Outside a taken START and a taken `CANVAS` write no instruction touches the claim. -/
theorem exec_planeValid {i : Instr} {s t : State} (hwf : Instr.wf s.params (codeCtx s) i = true)
    (h : exec i s = .next t) (hi : (i ≠ .start ∧ ∀ d, i ≠ .regwr 6#4 d) ∨ s.status.run = .busy) :
    t.planeValid = s.planeValid := by
  by_cases hcode : isCode i = true
  · exact (exec_codeFrame hcode h).planeValid_eq
  · rcases exec_host_cases (Bool.eq_false_iff.2 hcode) h with
      rfl | ⟨hb, rfl | ⟨d, rfl, hd⟩, -⟩ | ⟨hb, n, d, rfl, -, rfl⟩ | ⟨-, v, k, rfl⟩ | ⟨-, a, v, -, -, rfl⟩
    · rfl
    · exact absurd rfl (hi.resolve_right hb).1
    · exact absurd ⟨rfl, hd⟩ ((wf_regwr_iff _ _ _ _).1 hwf)
    · exact regWrite_planeValid d s fun hn => (hi.resolve_right hb).2 d (hn ▸ rfl)
    · rfl
    · rfl

end Sys2Proof.Machine

namespace Sys2Proof.Claims

open Sys2Proof.Machine

/-- Settles O3, register by register: each packed word is read as the number its fields make. -/
theorem regrdReturnsTheRegisterLayout : Obligations.RegrdReturnsTheRegisterLayout := by
  intro n s
  have hreg : ∀ k : RegNum, n.toNat = k.toNat → n = k := fun _ => BitVec.eq_of_toNat_eq
  refine ⟨regRead s n, rfl, ?ctrl, ?status, ?cause, fun h => hreg 3#4 h ▸ rfl, fun h => hreg 4#4 h ▸ rfl,
    fun h => hreg 5#4 h ▸ toNat_regRead_lzwcfg s, fun h => hreg 6#4 h ▸ toNat_append_halves s.cfg.ch s.cfg.cw,
    fun h => hreg 7#4 h ▸ toNat_append_halves s.cfg.top s.cfg.left,
    fun h => hreg 8#4 h ▸ toNat_append_halves s.cfg.ih s.cfg.iw, fun h => hreg 9#4 h ▸ toNat_regRead_frame s,
    fun h => hreg 10#4 h ▸ rfl, fun h => hreg 11#4 h ▸ rfl, fun h => hreg 12#4 h ▸ toNat_regRead_dstate s,
    fun h hlen => hreg 13#4 h ▸ toNat_regRead_tlen hlen⟩
  case ctrl =>
    rintro (h | h | h)
    · exact hreg 0#4 h ▸ rfl
    · exact hreg 14#4 h ▸ rfl
    · exact hreg 15#4 h ▸ rfl
  case status =>
    intro h
    rw [hreg 1#4 h, toNat_regRead_status]
    cases s.status.run <;> rfl
  case cause =>
    intro h
    rw [hreg 2#4 h, toNat_regRead_cause]
    cases s.status.cause <;> rfl

/-- Settles O4: register 0 by the parity of the word, registers 4 to 9 by their stores, and the rest are not RW. -/
theorem regwrStoresNamedFields : Obligations.RegwrStoresNamedFields := by
  intro n d s
  refine ⟨exec_regwr_busy n d, fun hb => ?_⟩
  have hreg : ∀ k : RegNum, n.toNat = k.toNat → n = k := fun _ => BitVec.eq_of_toNat_eq
  have hstore : ∀ {t : State}, n ≠ 0#4 → regWrite n d s = t → exec (.regwr n d) s = .next t :=
    fun hn ht => ht ▸ exec_regwr_store d hb hn
  refine ⟨fun h hd => ?_, fun h hd => ?_, fun h => ?_, fun h => ?_, fun h => ⟨false, ?_⟩, fun h => ?_, fun h => ?_,
    fun h => ?_, fun h => ?_⟩
  · cases hreg 0#4 h
    exact exec_regwr_start hb ((getLsbD_zero_iff d).2 hd)
  · cases hreg 0#4 h
    exact exec_regwr_ctrl hb (mt (getLsbD_zero_iff d).1 (by omega))
  · cases hreg 4#4 h
    exact hstore (by decide) rfl
  · cases hreg 5#4 h
    exact hstore (by decide) (regWrite_lzwcfg d s)
  · cases hreg 6#4 h
    exact hstore (by decide) (regWrite_canvas d s)
  · cases hreg 7#4 h
    exact hstore (by decide) (regWrite_imgpos d s)
  · cases hreg 8#4 h
    exact hstore (by decide) (regWrite_imgsize d s)
  · cases hreg 9#4 h
    exact hstore (by decide) (regWrite_frame d s)
  · have hn : 1 ≤ n.toNat ∧ (n.toNat < 4 ∨ 9 < n.toNat) := by
      simp only [List.mem_cons, List.not_mem_nil, or_false] at h
      omega
    exact hstore (by rintro rfl; exact absurd hn.1 (by decide)) (regWrite_notRW d s hn.2)

/-- Settles O5: the three outcomes of START, the launch with the initial table and the zeroed plane. -/
theorem startBeginsOrFaults : Obligations.StartBeginsOrFaults := fun s =>
  ⟨exec_start_busy, fun hb hbad => ⟨false, exec_start_bad hb hbad⟩, fun hb hok hw =>
    ⟨initialTable s.cfg.maxIdx, Memory.zeroBelow (canvas s) s.plane, true, exec_start_launch hb hok hw,
      initial_ok s.cfg.maxIdx, Memory.read_zeroBelow (canvas s) s.plane⟩⟩

/-- Settles O10: START's two ends, the store of `CANVAS`, and the frame of every other instruction. -/
theorem planeClaimFollowsStartAndCanvas : Obligations.PlaneClaimFollowsStartAndCanvas := by
  intro i s t hwf h
  refine ⟨?_, ?_, exec_planeValid hwf h⟩
  · rintro rfl hb
    exact startFrame_planeValid ((execStart_not_busy hb).symm.trans h)
  · rintro d rfl hb
    rw [exec_regwr_store d hb (by decide)] at h
    cases h
    rfl

/-- Settles O7, from the law of a read after a write. -/
theorem inwrStoresOneByte : Obligations.InwrStoresOneByte := fun a v s hb ha =>
  ⟨Memory.write s.input a.toNat v, exec_inwr_store v hb ha, fun x => Memory.read_write s.input a.toNat x v⟩

/-- Settles O9: the test of R94 decides whether the byte is the plane's or a free one. -/
theorem plrdReturnsThePlaneOrAnyValue : Obligations.PlrdReturnsThePlaneOrAnyValue := fun _ _ =>
  ⟨fun _ hdef hread => exec_plrd_defined ((if_pos hdef).trans hread), fun hundef => exec_plrd_free (if_neg hundef)⟩

end Sys2Proof.Claims

end

/-! ## The fetch (41_fetch.md R100 to R103): what it reads, how far it moves, and when the frame decode ends -/

section

namespace Sys2Proof.Machine

/-! ### What a fetch reads -/

/-- A fetch depends on whether the input is exhausted and on the bits at the fetch position (41_fetch.md R101, R102). -/
theorem fetch_congr {s t : State} (he : exhausted s = exhausted t)
    (hx : extractCode (Memory.read s.input) (bitPos s) s.codeSize.toNat =
      extractCode (Memory.read t.input) (bitPos t) t.codeSize.toNat) : fetch s = fetch t := by
  rw [fetch, fetch, he, hx]

/-- The decoder's turn where the input is exhausted (41_fetch.md R101). -/
theorem decoderTurn_exhausted {s : State} (hb : s.status.run = .busy) (he : exhausted s = true) :
    decoderTurn s = .next (exhaustedInput s) := by
  have hf : fetch s = .exhausted := if_pos he
  rw [decoderTurn_busy hb, hf]

/-- Exhausted input writes `TRUNC`, `STATE` and the released table, nothing else (43_control_codes.md R122). -/
theorem exhaustedInput_eq (s : State) : exhaustedInput s =
    { s with table := [], hasPrev := false, status := { s.status with trunc := true, run := .done } } := by
  have heoi : (s.status.eoi || (EndKind.trunc == EndKind.eoi)) = s.status.eoi := Bool.or_false _
  have htrunc : (s.status.trunc || (EndKind.trunc == EndKind.trunc)) = true := Bool.or_true _
  rw [exhaustedInput, endFrame, heoi, htrunc]
  rfl

/-! ### How far a code moves the fetch position -/

theorem bitPos_learn {k : Byte} {s u : State} (h : learn k s = some u) : bitPos u = bitPos s := by
  rw [learn_eq h]
  rfl

theorem bitPos_emit (e : List Byte) (s : State) : bitPos (emit e s).1 = bitPos s := by
  rw [emit_eq]
  rfl

theorem bitPos_emitAndMark (e : List Byte) (c : Code) (p : Nat) (s : State) :
    bitPos (emitAndMark e c p s) = bitPos s := by
  rcases emitAndMark_cases e c p s with h | h <;> rw [h] <;> exact bitPos_emit e s

/-- Of a code only its fetch moves `BITPOS` (41_fetch.md R103). -/
theorem bitPos_exec_code {i : Instr} {s t : State} (hi : isCode i = true) (h : exec i s = .next t) :
    bitPos t = bitPos (advance s) := by
  have hpre := codePreamble_bitPos s
  rcases exec_code_cases hi h with rfl | rfl | rfl | ⟨k, u, e, c, hu, rfl⟩
  · exact hpre
  · exact hpre
  · exact hpre
  · rw [bitPos_emitAndMark, bitPos_learn hu, hpre]

/-- The bits of a fetch that fits are passed by every class (41_fetch.md R103). -/
theorem bitPos_exec_code_of_fits {i : Instr} {s t : State} (hi : isCode i = true) (h : exec i s = .next t)
    (hfits : bitPos s + s.codeSize.toNat ≤ 8 * s.cfg.inLen.toNat) : bitPos t = bitPos s + s.codeSize.toNat :=
  (bitPos_exec_code hi h).trans (bitPos_advance s hfits)

/-! ### Where SKIP leaves the cursor -/

/-- The preamble stops at the first inside position or at the end of the canvas (42_cursor_skip.md R111). -/
theorem codePreamble_stops {s : State} (h : s.cursor.toNat ≤ canvas s) :
    (codePreamble s).cursor.toNat = canvas s ∨ inside s.cfg (codePreamble s).cursor.toNat = true :=
  (skip_stops (advance s)).imp_left (Nat.le_antisymm (codePreamble_cursor_le s h))

/-- Retain is the disposal mode 1 (10_state.md R31). -/
theorem disposal_eq_one_iff (d : BitVec 3) : d = 1#3 ↔ d.toNat = 1 := (BitVec.toNat_inj (y := 1#3)).symm

/-! ### Every frame decode ends -/

/-- A decoder's turn that leaves the frame decode under way has passed one code, and that code was in IN. -/
theorem bitPos_decoderTurn {s t : State} (hb : s.status.run = .busy) (hbt : t.status.run = .busy)
    (h : decoderTurn s = .next t) :
    bitPos s + s.codeSize.toNat ≤ 8 * s.cfg.inLen.toNat ∧ bitPos t = bitPos s + s.codeSize.toNat := by
  rcases decoderTurn_cases h with ⟨hn, -⟩ | ⟨-, -, rfl⟩ | ⟨-, he, c, -, hexec⟩
  · exact absurd hb hn
  · cases hbt
  · have hfits := fits_of_not_exhausted he
    exact ⟨hfits, bitPos_exec_code_of_fits (isCode_decodeCode _ c) hexec hfits⟩

/-- A code is at least two bits wide (10_state.md R43 (a), with `MINCODE` at least 1). -/
theorem BusyInv.two_le_codeSize {s : State} (h : BusyInv s) : 2 ≤ s.codeSize.toNat :=
  (Nat.succ_le_succ h.minCode_ok.1).trans h.width_ok.1

theorem DecoderOutcome.busy_or_ended {s : State} (h : DecoderOutcome s.status) :
    s.status.run = .busy ∨ ended s = true := by
  rcases h with hb | ⟨hd, -⟩ | ⟨hf, -⟩
  · exact .inl hb
  · exact .inr (by rw [ended, hd]; rfl)
  · exact .inr (by rw [ended, hf]; rfl)

/-- An undisturbed frame decode ends within `n` steps where fewer than `2*n` bits of IN are left: every step that does
not end it passes at least two of them. -/
theorem run_ends {n : Nat} {s : State} (hi : Inv s) (hb : s.status.run = .busy) (hts : s.turns = [])
    (hleft : 8 * s.cfg.inLen.toNat < bitPos s + 2 * n) :
    ∃ k t, k ≤ n ∧ core.run k s = .next t ∧ ended t = true := by
  have hB := hi.busy_ok hb
  induction n generalizing s with
  | zero => exact absurd hleft (Nat.not_lt.2 hB.bitPos_ok)
  | succ n ih =>
    obtain ⟨t, hturn, hout⟩ := decoderTurn_outcome hi hb
    have hstep : step s = .next t := (step_of_no_turns hts).trans hturn
    have hit := inv_decoderTurn hi hturn
    have hframe := decoderTurn_codeFrame hturn
    rcases hout.busy_or_ended with hbt | hend
    · have hwidth := hB.two_le_codeSize
      obtain ⟨-, hpos⟩ := bitPos_decoderTurn hb hbt hturn
      have hleft' : 8 * t.cfg.inLen.toNat < bitPos t + 2 * n := by
        rw [hframe.cfg_eq, hpos]
        omega
      obtain ⟨k, u, hk, hrun, hu⟩ := ih hit hbt (hframe.turns_eq.trans hts) hleft' (hit.busy_ok hbt)
      exact ⟨k + 1, u, Nat.succ_le_succ hk, (run_succ hstep k).trans hrun, hu⟩
    · exact ⟨1, t, Nat.succ_pos n, run_succ hstep 0, hend⟩

end Sys2Proof.Machine

namespace Sys2Proof.Claims

open Sys2Proof.Machine

/-- Settles O51, by induction on half the bits left: fewer than `2*(4*INLEN + 1)` are left at any `BITPOS`. -/
theorem frameDecodeEndsInTime : Obligations.FrameDecodeEndsInTime := fun _ hi hb hts =>
  run_ends hi hb hts (by omega)

/-- Settles O13: each bit of the code lies in one of its bytes, and the exhaustion test reads none. -/
theorem fetchReadsOnlyItsBytes : Obligations.FetchReadsOnlyItsBytes := fun s m hbytes => by
  have hread : extractCode (Memory.read m) (bitPos s) s.codeSize.toNat =
      extractCode (Memory.read s.input) (bitPos s) s.codeSize.toNat :=
    extractCode_congr fun j hj => hbytes _ (by omega) (by omega)
  exact fetch_congr rfl hread

/-- Settles O41: the preamble by what SKIP can do after the fetch, and `BITPOS` class by class. -/
theorem bitposMovesByTheWidth : Obligations.BitposMovesByTheWidth := by
  refine ⟨fun _ => rfl, fun s hs => ?_, fun _ _ _ => bitPos_exec_code_of_fits⟩
  have hskip := codePreamble_skipTo s
  refine ⟨(codePreamble s).cursor.toNat, (codePreamble s).plane, ?_, codePreamble_cursor_ge s,
    codePreamble_cursor_le s hs, hskip.passed, codePreamble_stops hs, fun a => ?_⟩
  · rw [BitVec.ofNat_toNat, BitVec.setWidth_eq]
    exact codePreamble_eq s
  · simp only [read_codePreamble_plane, disposal_eq_one_iff]

/-- Settles O18, from the decoder's step with its turn taken off. -/
theorem stepRunsTheDecodedCode : Obligations.StepRunsTheDecodedCode := by
  refine ⟨fun _ => step_decoder, fun s c hb hd hf => ?_⟩
  rw [step_busy hd hb, hf]
  rfl

/-- Settles O19, from the decoder's turn on exhausted input. -/
theorem exhaustedInputEndsWithTrunc : Obligations.ExhaustedInputEndsWithTrunc := fun s hb hfew => by
  rw [decoderTurn_exhausted hb ((exhausted_iff s).2 hfew), exhaustedInput_eq]

/-- Settles O20, from the decoder's step with its turn taken off. -/
theorem decoderRestsWhenNotBusy : Obligations.DecoderRestsWhenNotBusy := fun _ hb hd =>
  (step_decoder hd).trans (decoderTurn_not_busy hb)

end Sys2Proof.Claims

end

/-! ## The cursor (42_cursor_skip.md R110 to R113): the image rectangle, SKIP, and the empty canvas -/

section

namespace Sys2Proof.Machine

/-! ### The image rectangle -/

theorem inside_iff (f : FrameConfig) (a : Nat) : inside f a = true ↔
    f.left.toNat ≤ a % f.cw.toNat ∧ a % f.cw.toNat < f.left.toNat + f.iw.toNat ∧
    f.top.toNat ≤ a / f.cw.toNat ∧ a / f.cw.toNat < f.top.toNat + f.ih.toNat :=
  decide_eq_true_iff

/-- An empty rectangle has no inside position (42_cursor_skip.md R110 (a)). -/
theorem inside_eq_false_of_empty {f : FrameConfig} (a : Nat) (h : f.iw = 0#16 ∨ f.ih = 0#16) :
    inside f a = false := by
  rw [← Bool.not_eq_true, inside_iff]
  rintro ⟨hleft, hright, htop, hbottom⟩
  rcases h with hiw | hih
  · rw [hiw] at hright
    exact absurd hright (Nat.not_lt.2 hleft)
  · rw [hih] at hbottom
    exact absurd hbottom (Nat.not_lt.2 htop)

/-- A rectangle that begins right of the canvas or below it has no inside position (42_cursor_skip.md R110 (b)). -/
theorem inside_eq_false_of_beyond {f : FrameConfig} {a : Nat} (ha : a < f.cw.toNat * f.ch.toNat)
    (h : f.cw.toNat ≤ f.left.toNat ∨ f.ch.toNat ≤ f.top.toNat) : inside f a = false := by
  have hcw : 0 < f.cw.toNat := Nat.pos_of_mul_pos_right (Nat.zero_lt_of_lt ha)
  have hx : a % f.cw.toNat < f.cw.toNat := Nat.mod_lt a hcw
  have hy : a / f.cw.toNat < f.ch.toNat := Nat.div_lt_of_lt_mul ha
  rw [← Bool.not_eq_true, inside_iff]
  rintro ⟨hleft, -, htop, -⟩
  rcases h with hright | hbelow
  · exact absurd (hright.trans hleft) (Nat.not_le.2 hx)
  · exact absurd (hbelow.trans htop) (Nat.not_le.2 hy)

/-- `INSIDE` at column `x`, row `y` (20_memory.md R53). -/
theorem inside_position_iff {f : FrameConfig} {x : Nat} (y : Nat) (hx : x < f.cw.toNat) :
    inside f (y * f.cw.toNat + x) = true ↔
      f.left.toNat ≤ x ∧ x < f.left.toNat + f.iw.toNat ∧ f.top.toNat ≤ y ∧ y < f.top.toNat + f.ih.toNat := by
  have hcol : (y * f.cw.toNat + x) % f.cw.toNat = x := Nat.mul_add_mod_of_lt hx
  have hrow : (y * f.cw.toNat + x) / f.cw.toNat = y := by
    rw [Nat.mul_comm, Nat.mul_add_div (Nat.zero_lt_of_lt hx), Nat.div_eq_of_lt hx, Nat.add_zero]
  rw [inside_iff, hcol, hrow]

/-! ### SKIP -/

theorem skip_cursor_le {s : State} (h : s.cursor.toNat ≤ canvas s) : (skip s).cursor.toNat ≤ canvas s :=
  (skip_skipTo s).bound.trans (Nat.max_le.2 ⟨h, Nat.le_refl _⟩)

/-! ### The empty canvas -/

/-- `CW*CH = 0` where either side is 0 (42_cursor_skip.md R113). -/
theorem canvas_eq_zero {s : State} (h : s.cfg.cw = 0#16 ∨ s.cfg.ch = 0#16) : canvas s = 0 := by
  rcases h with h | h <;> simp [canvas, h]

/-- On an empty canvas SKIP does nothing (42_cursor_skip.md R113). -/
theorem skip_of_canvas_eq_zero {s : State} (h : canvas s = 0) : skip s = s := by
  rw [skip, h, Nat.zero_sub, skipLoop]

theorem codePreamble_of_canvas_eq_zero {s : State} (h : canvas s = 0) : codePreamble s = advance s :=
  skip_of_canvas_eq_zero (s := advance s) h

/-- No index fits on an empty canvas, wherever the cursor is (44_data_codes.md R138). -/
theorem emitAndMark_of_canvas_eq_zero {s : State} (b : Byte) (bs : List Byte) (c : Code) (p : Nat)
    (h : canvas s = 0) : emitAndMark (b :: bs) c p s = raiseFault .decodeOverrun p s := by
  have hemit : emit (b :: bs) s = (s, false) := if_neg (by rw [h]; exact Nat.not_lt_zero _)
  rw [emitAndMark, hemit]

end Sys2Proof.Machine

namespace Sys2Proof.Claims

open Sys2Proof.Machine

/-- Settles O21, clause by clause. -/
theorem insideIsTheRectangle : Obligations.InsideIsTheRectangle := fun f a =>
  ⟨inside_iff f a, inside_eq_false_of_empty a, inside_eq_false_of_beyond, fun _ y => inside_position_iff y⟩

/-- Settles O22, from everything SKIP can do and where it stops. -/
theorem skipPassesAndPaintsOutside : Obligations.SkipPassesAndPaintsOutside := fun s hs => by
  have hskip := skip_skipTo s
  have hstop : (skip s).cursor.toNat = canvas s ∨ inside s.cfg (skip s).cursor.toNat = true :=
    (skip_stops s).imp_left (Nat.le_antisymm (skip_cursor_le hs))
  refine ⟨(skip s).cursor.toNat, (skip s).plane, ?_, hskip.le, skip_cursor_le hs, hskip.passed, hstop, fun a => ?_⟩
  · rw [BitVec.ofNat_toNat, BitVec.setWidth_eq]
    exact hskip.frame
  · rw [hskip.painted]
    simp only [disposal_eq_one_iff]

/-- Settles O23: with `CW*CH = 0` the preamble is the fetch alone, and the first index already overruns. -/
theorem emptyCanvasHasNoPosition : Obligations.EmptyCanvasHasNoPosition := fun s hs => by
  have hcanvas : canvas s = 0 := canvas_eq_zero hs
  have hpre : codePreamble s = advance s := codePreamble_of_canvas_eq_zero hcanvas
  have hcursor : (codePreamble s).cursor = s.cursor := by rw [hpre, advance_cursor]
  have hplane : (codePreamble s).plane = s.plane := by rw [hpre, advance_plane]
  refine ⟨skip_of_canvas_eq_zero hcanvas, fun c _ hprev => ?_,
    ⟨_, rfl, hcursor, hplane, codePreamble_status s⟩, ⟨_, rfl, hcursor, hplane, rfl⟩⟩
  have hlearn : learn (BitVec.setWidth 8 c) (advance s) = some (advance s) :=
    learn_none fun h => Bool.false_ne_true (hprev.symm.trans h.1)
  calc exec (.lit c) s = .next (emitAndMark [BitVec.setWidth 8 c] c (bitPos s) (advance s)) := by
        rw [exec, execLit_eq, hpre, hlearn, Option.elim_some]
    _ = .next (faulted .decodeOverrun (bitPos s) (advance s)) :=
        congrArg _ (emitAndMark_of_canvas_eq_zero _ [] c (bitPos s) (s := advance s) hcanvas)

end Sys2Proof.Claims

end

/-! ## The control codes (43_control_codes.md R120 to R122): CLR, EOI, and the end of a frame decode -/

section

namespace Sys2Proof.Machine

open Claims (InitialTable)

/-! ### CLR and the initial table -/

theorem exec_clr_eq (s : State) : exec .clr s = .next { codePreamble s with
    table := initialTable s.cfg.maxIdx, codeSize := BitVec.ofNat 4 (s.cfg.minCode.toNat + 1), hasPrev := false } := by
  rw [← codePreamble_cfg s]
  rfl

/-- R40 fixes every slot and the length, so no two tables are initial for one `MAXIDX`. -/
theorem initialTable_unique {m : Byte} {t u : List (List Byte)} (ht : InitialTable m t) (hu : InitialTable m u) :
    t = u := by
  obtain ⟨htlen, htlit, htclr, hteoi⟩ := ht
  obtain ⟨hulen, hulit, huclr, hueoi⟩ := hu
  refine List.ext_getElem? fun i => ?_
  rcases Nat.lt_or_ge i (m.toNat + 3) with hlt | hbeyond
  · obtain hlit | rfl | rfl : i ≤ m.toNat ∨ i = m.toNat + 1 ∨ i = m.toNat + 2 := by omega
    · rw [htlit i hlit, hulit i hlit]
    · rw [htclr, huclr]
    · rw [hteoi, hueoi]
  · rw [List.getElem?_eq_none (htlen.trans_le hbeyond), List.getElem?_eq_none (hulen.trans_le hbeyond)]

/-- A frame decode only adds slots: below `MAXIDX + 3` they stay as they were built (10_state.md R43 (b), (h)). -/
theorem TableInv.initialTable_take {s : State} (h : TableInv s) :
    InitialTable s.cfg.maxIdx (s.table.take (s.cfg.maxIdx.toNat + 3)) := by
  have hkept : ∀ i, i < s.cfg.maxIdx.toNat + 3 → (s.table.take (s.cfg.maxIdx.toNat + 3))[i]? = entry s i :=
    fun i hi => List.getElem?_take_of_lt hi
  obtain ⟨hclr, heoi⟩ := h.sentinels
  refine ⟨List.length_take_of_le h.length_ok.1, fun i hi => ?_, ?_, ?_⟩
  · rw [hkept i (by omega), h.literals i hi]
  · rw [hkept _ (by omega), hclr]
  · rw [hkept _ (by omega), heoi]

/-! ### The normal ends -/

/-- `end(EOI)` writes its flag, `STATE` and the released table, nothing else (43_control_codes.md R122). -/
theorem endFrame_eoi_eq (s : State) : endFrame .eoi s =
    { s with table := [], hasPrev := false, status := { s.status with eoi := true, run := .done } } := by
  have heoi : (s.status.eoi || (EndKind.eoi == EndKind.eoi)) = true := Bool.or_true _
  have htrunc : (s.status.trunc || (EndKind.eoi == EndKind.trunc)) = s.status.trunc := Bool.or_false _
  rw [endFrame, heoi, htrunc]
  rfl

theorem endFrame_not_busy (k : EndKind) (s : State) : (endFrame k s).status.run ≠ .busy := by simp

end Sys2Proof.Machine

namespace Sys2Proof.Claims

open Sys2Proof.Machine

/-- Settles O25: the preamble keeps the configuration and `PREV`, and the rebuilt table is the initial one. -/
theorem clrRebuildsTheInitialTable : Obligations.ClrRebuildsTheInitialTable := fun s =>
  ⟨initialTable s.cfg.maxIdx, exec_clr_eq s, initial_ok s.cfg.maxIdx, codePreamble_prev s⟩

/-- Settles O26: the first `MAXIDX + 3` slots are an initial table, hence the one `CLR` rebuilds. -/
theorem clrOnlyShortensTheTable : Obligations.ClrOnlyShortensTheTable := fun s hi hb => by
  have hcut := (hi.busy_ok hb).table_ok.initialTable_take
  rw [exec_clr_eq, initialTable_unique hcut (initial_ok s.cfg.maxIdx)]

/-- Settles O27: the end of the frame decode on the state after the preamble, which keeps the status. -/
theorem eoiEndsTheFrameDecode : Obligations.EoiEndsTheFrameDecode := fun s => by
  change Host.Outcome.next (endFrame .eoi (codePreamble s)) = _
  rw [endFrame_eoi_eq, codePreamble_status]

/-- Settles O28: `end(kind)` for each kind, and the decoder at rest when not `BUSY`. -/
theorem endReleasesTheTable : Obligations.EndReleasesTheTable := fun s =>
  ⟨endFrame_eoi_eq s, exhaustedInput_eq s, fun k => decoderTurn_not_busy (endFrame_not_busy k s)⟩

end Sys2Proof.Claims

end

/-! ## The data codes (44_data_codes.md R130 to R139): the append, GROW, EMIT with MARK, and the four classes -/

section

namespace Sys2Proof.Machine

open Claims (PlaneAfter Appends TableAfter WidthAfter faulted)

/-! ### EMIT and MARK (44_data_codes.md R138, R139) -/

/-- EMIT writes the indices that fit, in order, and no other plane byte. -/
theorem EmitTo.planeAfter {e : List Byte} {s t : State} (h : EmitTo e s t) :
    PlaneAfter s.plane t.plane s.cursor.toNat (e.take (canvas s - s.cursor.toNat)) := fun a => by
  have hlast : s.cursor.toNat + (e.take (canvas s - s.cursor.toNat)).length = t.cursor.toNat := by
    rw [h.cursor, List.length_take, Nat.min_comm]
  rw [h.written, hlast]
  split
  · rename_i ha
    have hcursor := h.cursor
    rw [List.getElem?_take_of_lt (by omega)]
  · rfl

/-- EMIT's cursor, as the number it holds. -/
theorem emit_cursor_eq {e : List Byte} {s : State} {n : Nat}
    (h : s.cursor.toNat + min e.length (canvas s - s.cursor.toNat) = n) : (emit e s).1.cursor = BitVec.ofNat 32 n := by
  rw [← h, ← (emit_emitTo e s).cursor, BitVec.ofNat_toNat, BitVec.setWidth_eq]

theorem emitAndMark_fits_eq {e : List Byte} {s : State} (c : Code) (p : Nat) (h : s.cursor.toNat ≤ canvas s)
    (hfits : s.cursor.toNat + e.length ≤ canvas s) : emitAndMark e c p s = { s with
      plane := (emit e s).1.plane, cursor := BitVec.ofNat 32 (s.cursor.toNat + e.length), hasPrev := true, prev := c } := by
  rw [emitAndMark_fits c p h hfits, ← emit_cursor_eq (e := e) (s := s) (by omega), emit_eq]
  rfl

theorem emitAndMark_overruns_eq {e : List Byte} {s : State} (c : Code) (p : Nat) (h : s.cursor.toNat ≤ canvas s)
    (hover : canvas s < s.cursor.toNat + e.length) : emitAndMark e c p s = faulted .decodeOverrun p { s with
      plane := (emit e s).1.plane, cursor := BitVec.ofNat 32 (canvas s) } := by
  rw [emitAndMark_overruns c p h hover, ← emit_cursor_eq (e := e) (s := s) (by omega), emit_eq]
  rfl

/-- With no canvas position left, wherever the cursor is, no index is written. -/
theorem emitAndMark_of_canvas_le {s : State} (b : Byte) (bs : List Byte) (c : Code) (p : Nat)
    (h : canvas s ≤ s.cursor.toNat) : emitAndMark (b :: bs) c p s = faulted .decodeOverrun p s := by
  have hemit : emit (b :: bs) s = (s, false) := if_neg (Nat.not_lt.2 h)
  rw [emitAndMark, hemit]
  rfl

theorem emitEntry_of_entry {c : Code} {s : State} {e : List Byte} (p : Nat) (h : entry s c.toNat = some e) :
    emitEntry c p s = .next (emitAndMark e c p s) := by
  rw [emitEntry, h]

/-! ### GROW (44_data_codes.md R136) -/

/-- Where GROW adds one to the width. -/
def AtThreshold (s : State) : Prop :=
  s.table.length = 2 ^ s.codeSize.toNat - s.params.growBias.val ∧ s.codeSize.toNat < 12

theorem grow_of_atThreshold {s : State} (h : AtThreshold s) : grow s = { s with codeSize := s.codeSize + 1#4 } :=
  if_pos h

theorem grow_of_not_atThreshold {s : State} (h : ¬AtThreshold s) : grow s = s := if_neg h

theorem grow_codeSize_of_atThreshold {s : State} (h : AtThreshold s) :
    (grow s).codeSize.toNat = s.codeSize.toNat + 1 :=
  (grow_codeSize_toNat s).trans (if_pos h)

theorem grow_ne_self_iff (s : State) : grow s ≠ s ↔ AtThreshold s := by
  constructor
  · exact fun h => by_contra fun hn => h (grow_of_not_atThreshold hn)
  · intro h hsame
    have hwidth := grow_codeSize_of_atThreshold h
    rw [hsame] at hwidth
    omega

theorem grow_codeSize_le {s : State} (h : s.codeSize.toNat ≤ 12) : (grow s).codeSize.toNat ≤ 12 := by
  by_cases hgrow : AtThreshold s
  · rw [grow_codeSize_of_atThreshold hgrow]
    exact hgrow.2
  · rwa [grow_of_not_atThreshold hgrow]

/-- The source's thresholds (`GROW_BIAS = 1`): each width from 2 to 11 with the length `2^width - 1`. -/
theorem mem_sourceThresholds_iff {w n : Nat} (hw : 2 ≤ w) :
    (w, n) ∈ [(2, 3), (3, 7), (4, 15), (5, 31), (6, 63), (7, 127), (8, 255), (9, 511), (10, 1023), (11, 2047)] ↔
      n = 2 ^ w - 1 ∧ w < 12 := by
  change (w, n) ∈ (List.range' 2 10).map (fun v => (v, 2 ^ v - 1)) ↔ _
  rw [List.mem_map]
  constructor
  · rintro ⟨v, hv, heq⟩
    obtain ⟨rfl, rfl⟩ := Prod.mk.inj heq
    exact ⟨rfl, (List.mem_range'_1.1 hv).2⟩
  · rintro ⟨rfl, hlt⟩
    exact ⟨w, List.mem_range'_1.2 ⟨hw, hlt⟩, rfl⟩

/-! ### What a data code adds (44_data_codes.md R130, R135, R137) -/

theorem widthAfter_grow_append {s : State} (h : Appends s) (e : List Byte) :
    WidthAfter s (grow (append e s)).codeSize := by
  have hiff : AtThreshold (append e s) ↔
      s.table.length + 1 = 2 ^ s.codeSize.toNat - s.params.growBias.val ∧ s.codeSize.toNat < 12 := by
    rw [AtThreshold, append_table, List.length_append]
    rfl
  constructor
  · exact fun hgrows => grow_codeSize_of_atThreshold (hiff.2 hgrows.2)
  · intro hn
    rw [grow_of_not_atThreshold fun hat => hn ⟨h, hiff.1 hat⟩, append_codeSize]

/-- What a data code adds is the table and the width its statement names, where `PREV` names a slot. -/
theorem exists_learn {s : State} {e : List Byte} (k : Byte)
    (he : s.hasPrev = true → s.table[s.prev.toNat]? = some e) : ∃ (tbl : List (List Byte)) (w : BitVec 4),
      TableAfter s e k tbl ∧ WidthAfter s w ∧ learn k s = some { s with table := tbl, codeSize := w } := by
  by_cases happ : Appends s
  · refine ⟨s.table ++ [e ++ [k]], (grow (append (e ++ [k]) s)).codeSize, ⟨fun _ => rfl, (absurd happ ·)⟩,
      widthAfter_grow_append happ _, ?_⟩
    rw [learn_some happ.1 happ.2 (he happ.1), grow_eq]
    rfl
  · exact ⟨s.table, s.codeSize, ⟨(absurd · happ), fun _ => rfl⟩, ⟨fun hgrows => absurd hgrows.1 happ, fun _ => rfl⟩,
      learn_none happ⟩

/-- The same after the preamble, which keeps all that the append reads. -/
theorem exists_learn_codePreamble {s : State} {e : List Byte} (k : Byte)
    (he : s.hasPrev = true → s.table[s.prev.toNat]? = some e) : ∃ (tbl : List (List Byte)) (w : BitVec 4),
      TableAfter s e k tbl ∧ WidthAfter s w ∧
      learn k (codePreamble s) = some { codePreamble s with table := tbl, codeSize := w } := by
  have h := exists_learn (s := codePreamble s) (e := e) k
    (by rwa [codePreamble_hasPrev, codePreamble_table, codePreamble_prev])
  simpa only [TableAfter, WidthAfter, Appends, codePreamble_hasPrev, codePreamble_table, codePreamble_codeSize,
    codePreamble_params] using h

/-- A slot in use keeps its sequence through the append. -/
theorem getElem?_of_tableAfter {s : State} {e seq : List Byte} {k : Byte} {tbl : List (List Byte)} {i : Nat}
    (h : TableAfter s e k tbl) (hi : s.table[i]? = some seq) : tbl[i]? = some seq := by
  obtain ⟨happends, hkeeps⟩ := h
  by_cases happ : Appends s
  · rw [happends happ, List.getElem?_append_left (List.getElem?_eq_some_iff.1 hi).1, hi]
  · rwa [hkeeps happ]

/-! ### The classes, once their first index is found (44_data_codes.md R131 to R133) -/

theorem exec_ref_of_first {c : Code} {s : State} {k : Byte} (h : firstOf s c.toNat = some k) : exec (.ref c) s =
    (learn k (codePreamble s)).elim (.fault .tableSlot) (emitEntry c (bitPos s)) := by
  rw [exec, execRef_eq, codePreamble_firstOf, h, Option.elim_some]

theorem exec_kwk_of_first {s : State} {k : Byte} (c : Code) (h : firstOf s s.prev.toNat = some k) : exec (.kwk c) s =
    (learn k (codePreamble s)).elim (.fault .tableSlot) (emitEntry c (bitPos s)) := by
  rw [exec, execKwk_eq, codePreamble_firstOf, h, Option.elim_some]

theorem firstOf_eq_some {s : State} {i : Nat} {e : List Byte} {k : Byte} (he : s.table[i]? = some e)
    (hk : e.head? = some k) : firstOf s i = some k := by
  rw [firstOf, entry, he, Option.bind_some, hk]

/-! ### The procedure DATA (44_data_codes.md R130) -/

theorem dataProcedure_bad {c : Code} {s : State} (p : Nat)
    (h : tlen s < c.toNat ∨ (c.toNat = tlen s ∧ s.hasPrev = false)) :
    dataProcedure c p s = .next (raiseFault .badCode p s) := by
  cases hp : s.hasPrev with
  | true =>
    have hlt : tlen s < c.toNat := h.resolve_right fun hn => by simp [hp] at hn
    rw [dataProcedure, if_pos hp, if_pos hlt]
  | false =>
    have hle : tlen s ≤ c.toNat := by omega
    rw [dataProcedure, if_neg (by simp [hp]), if_pos hle]

/-- A code that is not `BAD` appends, then its entry is emitted from the table after the append. -/
theorem dataProcedure_of_index {c : Code} {s : State} {k : Byte} (p : Nat)
    (h : c.toNat < tlen s ∨ (c.toNat = tlen s ∧ s.hasPrev = true)) (hk : dataIndex c s = some k) :
    dataProcedure c p s = (learn k s).elim (.fault .tableSlot) (emitEntry c p) := by
  have hle : ¬tlen s < c.toNat := by omega
  cases hp : s.hasPrev with
  | false =>
    have hlt : ¬tlen s ≤ c.toNat := Nat.not_le.2 (h.resolve_right fun hn => by simp [hp] at hn)
    rw [dataProcedure, if_neg (by simp [hp]), if_neg hlt, learn_none (by simp [hp]), Option.elim_some]
  | true =>
    rw [dataProcedure, if_pos hp, if_neg hle]
    by_cases hroom : tlen s < tableCap
    · rw [if_pos hroom, hk]
      cases he : entry s s.prev.toNat with
      | none => rw [learn_eq_none k hp hroom he]; rfl
      | some e => rw [learn_some hp hroom he]; rfl
    · rw [if_neg hroom, learn_none fun hn => hroom hn.2, Option.elim_some]

/-- A code value always names a slot of a full table. -/
theorem code_lt_of_full {c : Code} {s : State} (hfull : tlen s = tableCap) : c.toNat < tlen s := hfull ▸ c.isLt

/-- With a full table DATA is EMIT and MARK of the code's entry (44_data_codes.md R137). -/
theorem dataProcedure_full {c : Code} {s : State} (p : Nat) (hfull : tlen s = tableCap) :
    dataProcedure c p s = emitEntry c p s := by
  have hlt : c.toNat < tlen s := code_lt_of_full hfull
  unfold dataProcedure
  rw [if_neg (Nat.not_lt.2 hlt.le), if_neg hfull.not_lt, if_neg (Nat.not_le.2 hlt), ite_self]

theorem dataIndex_of_lt {c : Code} {s : State} (h : c.toNat < tlen s) : dataIndex c s = firstOf s c.toNat := if_pos h

theorem dataIndex_of_eq {c : Code} {s : State} (h : c.toNat = tlen s) : dataIndex c s = firstOf s s.prev.toNat :=
  if_neg (by omega)

/-! ### Each class on a state of a frame decode is DATA (44_data_codes.md R130) -/

theorem exec_lit_eq_data {c : Code} {s : State} (hT : TableInv s) (hc : c.toNat ≤ s.cfg.maxIdx.toNat) :
    exec (.lit c) s = dataProcedure c (bitPos s) (codePreamble s) := by
  have hlt : c.toNat < tlen (codePreamble s) := by
    have hlen := hT.length_ok.1
    rw [codePreamble_tlen]
    omega
  have hentry : entry (codePreamble s) c.toNat = some [BitVec.setWidth 8 c] := by
    rw [codePreamble_entry, hT.literals _ hc, BitVec.ofNat_toNat]
  have hindex : dataIndex c (codePreamble s) = some (BitVec.setWidth 8 c) :=
    (dataIndex_of_lt hlt).trans (firstOf_eq_some hentry rfl)
  rw [dataProcedure_of_index _ (.inl hlt) hindex, exec, execLit_eq]
  cases hlearn : learn (BitVec.setWidth 8 c) (codePreamble s) with
  | none => rfl
  | some u =>
    obtain ⟨-, hkeeps, -⟩ := learn_tlen hlearn
    exact (emitEntry_of_entry _ ((hkeeps _ hlt).trans hentry)).symm

theorem exec_ref_eq_data {c : Code} {s : State} (hT : TableInv s) (hc : s.cfg.maxIdx.toNat + 3 ≤ c.toNat)
    (hlt : c.toNat < tlen s) : exec (.ref c) s = dataProcedure c (bitPos s) (codePreamble s) := by
  obtain ⟨k, hk, -⟩ := first_ok hT hlt (by omega) (by omega)
  have hlt' : c.toNat < tlen (codePreamble s) := by rwa [codePreamble_tlen]
  have hindex : dataIndex c (codePreamble s) = some k := by rw [dataIndex_of_lt hlt', codePreamble_firstOf, hk]
  rw [exec_ref_of_first hk, dataProcedure_of_index _ (.inl hlt') hindex]

theorem exec_kwk_eq_data {c : Code} {s : State} (hB : BusyInv s) (hc : c.toNat = tlen s) (hp : s.hasPrev = true) :
    exec (.kwk c) s = dataProcedure c (bitPos s) (codePreamble s) := by
  obtain ⟨hslot, hnotClr, hnotEoi⟩ := hB.prev_ok hp
  obtain ⟨k, hk, -⟩ := first_ok hB.table_ok hslot hnotClr hnotEoi
  have hc' : c.toNat = tlen (codePreamble s) := by rwa [codePreamble_tlen]
  have hindex : dataIndex c (codePreamble s) = some k := by
    rw [dataIndex_of_eq hc', codePreamble_firstOf, codePreamble_prev, hk]
  rw [exec_kwk_of_first c hk, dataProcedure_of_index _ (.inr ⟨hc', by rwa [codePreamble_hasPrev]⟩) hindex]

theorem exec_bad_eq_data {c : Code} {s : State} (h : tlen s < c.toNat ∨ (c.toNat = tlen s ∧ s.hasPrev = false)) :
    exec (.bad c) s = dataProcedure c (bitPos s) (codePreamble s) :=
  (dataProcedure_bad (s := codePreamble s) _ (by rwa [codePreamble_tlen, codePreamble_hasPrev])).symm

end Sys2Proof.Machine

namespace Sys2Proof.Claims

open Sys2Proof.Machine

/-- Settles O35, class by class: outside `BAD` both sides are the append of one index and then EMIT of the code's
entry. -/
theorem dataClassesAgreeWithData : Obligations.DataClassesAgreeWithData := by
  intro s c hi hb hnotClr hnotEoi
  have hB := hi.busy_ok hb
  rcases code_cases (codeCtx s) c with hclr | heoi | hlit | ⟨hfirst, hlt⟩ | ⟨hfirst, heq, hp⟩ | ⟨hfirst, hbad⟩
  · exact absurd hclr hnotClr
  · exact absurd heoi hnotEoi
  · rw [decodeCode_lit hlit, exec_lit_eq_data hB.table_ok hlit]
  · rw [decodeCode_ref hfirst hlt, exec_ref_eq_data hB.table_ok hfirst hlt]
  · rw [decodeCode_kwk hfirst heq hp, exec_kwk_eq_data hB heq hp]
  · rw [decodeCode_bad hfirst hbad, exec_bad_eq_data hbad]

/-- Settles O24, from everything EMIT can do and when it reports success. -/
theorem emitWritesThenMarksOrOverruns : Obligations.EmitWritesThenMarksOrOverruns := fun e c p s hs =>
  ⟨(emit e s).1.plane, (emit_emitTo e s).planeAfter, emitAndMark_fits_eq c p hs, emitAndMark_overruns_eq c p hs⟩

/-- EMIT and MARK on the state after the preamble and the append, in the words of the data codes' statements. -/
theorem exists_plane_emitAndMark {s : State} (seq : List Byte) (c : Code) (tbl : List (List Byte)) (w : BitVec 4)
    (hs : (codePreamble s).cursor.toNat ≤ s.cfg.cw.toNat * s.cfg.ch.toNat) : ∃ pl : Memory,
      PlaneAfter (codePreamble s).plane pl (codePreamble s).cursor.toNat
        (seq.take (s.cfg.cw.toNat * s.cfg.ch.toNat - (codePreamble s).cursor.toNat)) ∧
      ((codePreamble s).cursor.toNat + seq.length ≤ s.cfg.cw.toNat * s.cfg.ch.toNat →
        emitAndMark seq c (bitPos s) { codePreamble s with table := tbl, codeSize := w } = { codePreamble s with
          table := tbl, codeSize := w, plane := pl
          cursor := BitVec.ofNat 32 ((codePreamble s).cursor.toNat + seq.length), hasPrev := true, prev := c }) ∧
      (s.cfg.cw.toNat * s.cfg.ch.toNat < (codePreamble s).cursor.toNat + seq.length →
        emitAndMark seq c (bitPos s) { codePreamble s with table := tbl, codeSize := w } =
          faulted .decodeOverrun (bitPos s) { codePreamble s with
            codeSize := w, plane := pl, cursor := BitVec.ofNat 32 (s.cfg.cw.toNat * s.cfg.ch.toNat) }) := by
  rw [← codePreamble_cfg s] at hs ⊢
  exact emitWritesThenMarksOrOverruns seq c (bitPos s) { codePreamble s with table := tbl, codeSize := w } hs

/-- Settles O29: the append never fails, and the one index fits exactly where a position is left. -/
theorem litEmitsItsIndex : Obligations.LitEmitsItsIndex := by
  intro c s e _ hprev
  obtain ⟨tbl, w, htbl, hw, hlearn⟩ := exists_learn_codePreamble (BitVec.setWidth 8 c) hprev
  have hexec : exec (.lit c) s = .next (emitAndMark [BitVec.setWidth 8 c] c (bitPos s)
      { codePreamble s with table := tbl, codeSize := w }) := by
    rw [exec, execLit_eq, hlearn, Option.elim_some]
  rw [BitVec.ofNat_toNat]
  refine ⟨tbl, w, htbl, hw, fun hroom => ?_, fun hnone => ?_⟩
  · obtain ⟨pl, hpl, hfits, -⟩ := exists_plane_emitAndMark [BitVec.setWidth 8 c] c tbl w hroom.le
    rw [List.take_of_length_le (Nat.sub_pos_of_lt hroom)] at hpl
    refine ⟨pl, ?_, hpl⟩
    have hcursor : BitVec.ofNat 32 ((codePreamble s).cursor.toNat + 1) = (codePreamble s).cursor + 1#32 := by
      rw [BitVec.ofNat_add, BitVec.ofNat_toNat, BitVec.setWidth_eq]
    rw [hexec, hfits hroom, List.length_singleton, hcursor]
  · rw [hexec, emitAndMark_of_canvas_le]
    · rfl
    · exact (codePreamble_canvas s).trans_le hnone

/-- Settles O30: the entry is found before the append and is not changed by it; a code past the sentinels is in use
only after an append, so there is a previous code and its entry has grown. -/
theorem refEmitsItsEntry : Obligations.RefEmitsItsEntry := by
  intro c s e seq k hc hseq hk hprev hs
  obtain ⟨tbl, w, htbl, hw, hlearn⟩ := exists_learn_codePreamble k hprev
  obtain ⟨pl, hpl, hfits, hover⟩ := exists_plane_emitAndMark seq c tbl w hs
  have hexec : exec (.ref c) s = .next (emitAndMark seq c (bitPos s)
      { codePreamble s with table := tbl, codeSize := w }) := by
    rw [exec_ref_of_first (firstOf_eq_some hseq hk), hlearn, Option.elim_some]
    exact emitEntry_of_entry _ (getElem?_of_tableAfter htbl hseq)
  refine ⟨fun hi hb => ?_, tbl, w, pl, htbl, hw, hpl, fun h => by rw [hexec, hfits h], fun h => by rw [hexec, hover h]⟩
  have hB := hi.busy_ok hb
  refine ⟨Bool.of_not_eq_false fun hfresh => ?_, (hB.table_ok.grown _ _ hc hseq).1⟩
  have hlen := (hB.fresh_ok hfresh).1
  have hlt := entry_lt hseq
  omega

/-- Settles O31: the slot appended is the code's own, so its entry is the one emitted. -/
theorem kwkEmitsTheEntryItAppends : Obligations.KwkEmitsTheEntryItAppends := by
  intro c s e k hc hp hroom he hk hs
  have hslot : (s.table ++ [e ++ [k]])[c.toNat]? = some (e ++ [k]) := by rw [hc, List.getElem?_concat_length]
  obtain ⟨tbl, w, ⟨happends, -⟩, hw, hlearn⟩ := exists_learn_codePreamble k fun _ => he
  obtain rfl := happends ⟨hp, hroom⟩
  obtain ⟨pl, hpl, hfits, hover⟩ := exists_plane_emitAndMark (e ++ [k]) c (s.table ++ [e ++ [k]]) w hs
  have hexec : exec (.kwk c) s = .next (emitAndMark (e ++ [k]) c (bitPos s)
      { codePreamble s with table := s.table ++ [e ++ [k]], codeSize := w }) := by
    rw [exec_kwk_of_first c (firstOf_eq_some he hk), hlearn, Option.elim_some]
    exact emitEntry_of_entry _ hslot
  rw [List.length_append, List.length_singleton] at hfits hover
  exact ⟨by rw [List.head?_append, hk, Option.some_or], List.getLast?_concat, hslot, w, pl, hw, hpl,
    fun h => by rw [hexec, hfits h], fun h => by rw [hexec, hover h]⟩

/-- Settles O36: GROW's two cases, and the thresholds of `GROW_BIAS = 1`. -/
theorem growAtTheThresholdOnly : Obligations.GrowAtTheThresholdOnly := fun s =>
  ⟨grow_of_atThreshold, grow_of_not_atThreshold, grow_codeSize_le, fun hbias hlow _ => by
    rw [grow_ne_self_iff, AtThreshold, hbias, mem_sourceThresholds_iff hlow]
    rfl⟩

/-- Settles O37, from DATA: with all 4096 slots in use every data code names one. -/
theorem fullTableStillDecodes : Obligations.FullTableStillDecodes := by
  intro s c hi hb hfull hnotClr hnotEoi
  obtain ⟨seq, hseq⟩ := entry_of_lt s c.toNat (code_lt_of_full hfull)
  refine ⟨seq, hseq, ?_⟩
  rw [dataClassesAgreeWithData s c hi hb hnotClr hnotEoi, dataProcedure_full _ ((codePreamble_tlen s).trans hfull)]
  exact emitEntry_of_entry _ ((codePreamble_entry s _).trans hseq)

/-- Settles O32: the class by its row, and its effect as the fault entry after the preamble. -/
theorem badCodeFaults : Obligations.BadCodeFaults := ⟨fun _ _ => decodeCode_bad, fun _ _ => rfl⟩

end Sys2Proof.Claims

end

/-! ## Ends and faults (60_exceptions.md R150 to R162): the five ends, what a faulting code has done, what keeps them -/

section

namespace Sys2Proof.Machine

open Claims (Appends WidthAfter faulted IssuesStart)

/-! ### How a frame decode ends (R150) -/

theorem ended_iff (s : State) : ended s = true ↔ s.status.run = .done ∨ s.status.run = .fault := by
  rw [ended, Bool.or_eq_true, beq_iff_eq, beq_iff_eq]

theorem run_ne_busy_of_ended {s : State} (h : ended s = true) : s.status.run ≠ .busy := by
  rcases (ended_iff s).1 h with hd | hf
  · simp [hd]
  · simp [hf]

/-- In `DONE` exactly one flag is set and there is no cause; in `FAULT` no flag is set and there is one. -/
theorem Inv.ended_cases {s : State} (hi : Inv s) (h : ended s = true) :
    (s.status.run = .done ∧ s.status.eoi = !s.status.trunc ∧ s.status.cause = .none) ∨
    (s.status.run = .fault ∧ s.status.eoi = false ∧ s.status.trunc = false ∧ s.status.cause ≠ .none) := by
  obtain ⟨hdone, hother, hcause, -⟩ := hi.status_ok
  rcases (ended_iff s).1 h with hd | hf
  · have hnone : s.status.cause = .none := by
      by_contra hne
      have hfault := hcause.2 hne
      rw [hd] at hfault
      cases hfault
    exact .inl ⟨hd, hdone hd, hnone⟩
  · obtain ⟨heoi, htrunc⟩ := hother (by simp [hf])
    exact .inr ⟨hf, heoi, htrunc, hcause.1 hf⟩

/-- The value of `STATUS` as its three fields (10_state.md R23). -/
theorem regRead_status_eq {s : State} {v : Word}
    (h : s.status.run.bits.toNat + 4 * s.status.eoi.toNat + 8 * s.status.trunc.toNat = v.toNat) :
    regRead s 1#4 = v :=
  BitVec.eq_of_toNat_eq ((toNat_regRead_status s).trans h)

/-- The field `CAUSE.CAUSE` (10_state.md R24). -/
theorem regRead_cause_field (s : State) : (regRead s 2#4).extractLsb' 0 4 = s.status.cause.bits := by
  apply BitVec.eq_of_toNat_eq
  have hlt := s.status.cause.bits.isLt
  rw [extractLsb'_eq_ofNat, toNat_regRead_cause, BitVec.toNat_ofNat]
  omega

/-! ### What a code that overruns has done (R160) -/

/-- The table and the width after what a data code adds, in the words of R135 and R136. -/
theorem learn_table_width {k : Byte} {s u : State} (h : learn k s = some u) :
    (u.table = s.table ∨ ∃ e, s.table[s.prev.toNat]? = some e ∧ u.table = s.table ++ [e ++ [k]]) ∧
    WidthAfter s u.codeSize := by
  rcases learn_cases h with ⟨hn, rfl⟩ | ⟨hp, hroom, e, he, rfl⟩
  · exact ⟨.inl rfl, fun hgrows => absurd hgrows.1 hn, fun _ => rfl⟩
  · exact ⟨.inr ⟨e, he, grow_table _⟩, widthAfter_grow_append ⟨hp, hroom⟩ _⟩

/-- The preamble keeps all that the width depends on. -/
theorem widthAfter_codePreamble {s : State} {w : BitVec 4} (h : WidthAfter (codePreamble s) w) : WidthAfter s w := by
  simpa only [WidthAfter, Appends, codePreamble_hasPrev, codePreamble_table, codePreamble_codeSize,
    codePreamble_params] using h

/-- A code in a frame decode that ends in `FAULT` is `BadCode` at once, or the overrun of the sequence it resolves to
after its append. -/
theorem exec_decodeCode_fault {s t : State} {c : Code} (hi : Inv s) (hb : s.status.run = .busy)
    (he : exhausted s = false) (h : exec (decodeCode (codeCtx s) c) s = .next t) (hf : t.status.run = .fault) :
    t = faulted .badCode (bitPos s) (codePreamble s) ∨
    ∃ u seq k, learn k (codePreamble s) = some u ∧ u.table[c.toNat]? = some seq ∧ seq.head? = some k ∧
      t = emitAndMark seq c (bitPos s) u := by
  have hpre : (codePreamble s).status.run = .busy := by rw [codePreamble_status, hb]
  rcases code_result s c (hi.busy_ok hb) (fits_of_not_exhausted he) with
    hr | hr | hr | ⟨u, seq, k, hr, -, hu, hseq, hk, -⟩ <;> rw [hr] at h <;> cases h
  · exact absurd (hpre.symm.trans hf) (by decide)
  · cases hf
  · exact .inl rfl
  · exact .inr ⟨u, seq, k, hu, hseq, hk, rfl⟩

theorem exhausted_of_fetch_code {s : State} {c : Code} (h : fetch s = .code c) : exhausted s = false := by
  rcases fetch_cases s with ⟨-, hf⟩ | ⟨he, -⟩ | ⟨he, -⟩
  · rw [hf] at h
    cases h
  · exact he
  · exact he

/-! ### What changes the status of an ended frame decode (R161, R162) -/

/-- Only the access that issues START decodes as it (30_encoding.md R76). -/
theorem issuesStart_of_decodeAccess {a : Access}
    (h : decodeAccess a = .start ∨ ∃ d : Word, decodeAccess a = .regwr 0#4 d ∧ d.getLsbD 0 = true) :
    IssuesStart (.host a) := by
  cases a with
  | regWrite n d =>
    by_cases hs : n = 0#4 ∧ d.getLsbD 0 = true
    · exact ⟨d, by rw [hs.1], hs.2⟩
    · have hdec : decodeAccess (.regWrite n d) = .regwr n d := if_neg hs
      rw [hdec] at h
      rcases h with h | ⟨d', h, hd⟩
      · cases h
      · cases h
        exact absurd ⟨rfl, hd⟩ hs
  | regRead n => simp [decodeAccess] at h
  | inWrite b v => simp [decodeAccess] at h
  | planeRead b => simp [decodeAccess] at h

/-- No host access but START writes the status registers (40_host_commands.md R90 to R94). -/
theorem exec_host_status {a : Access} {s t : State} (hn : ¬IssuesStart (.host a))
    (h : exec (decodeAccess a) s = .next t) : t.status = s.status := by
  rcases exec_host_cases (isCode_decodeAccess a) h with
    rfl | ⟨-, hstart, -⟩ | ⟨-, n, d, -, -, rfl⟩ | ⟨-, v, d, rfl⟩ | ⟨-, b, v, -, -, rfl⟩
  · rfl
  · exact absurd (issuesStart_of_decodeAccess hstart) hn
  · rw [regWrite_keeps]
  · rfl
  · rfl

end Sys2Proof.Machine

namespace Sys2Proof.Claims

open Sys2Proof.Machine

/-- Settles O38: a fault is `BadCode` on the state after the preamble, or EMIT's overrun after the append; a sequence
that fits leaves the frame decode `BUSY`. -/
theorem faultsArePrecise : Obligations.FaultsArePrecise := by
  intro s t c hi hb hfetch hexec hf
  have he := exhausted_of_fetch_code hfetch
  have hpos : bitPos t = bitPos s + s.codeSize.toNat :=
    bitPos_exec_code_of_fits (isCode_decodeCode _ c) hexec (fits_of_not_exhausted he)
  refine ⟨hpos, ?_⟩
  rcases exec_decodeCode_fault hi hb he hexec hf with rfl | ⟨u, seq, k, hlearn, hseq, hk, rfl⟩
  · exact ⟨codePreamble_prev s, .inl ⟨rfl, rfl⟩⟩
  obtain ⟨htbl, hw⟩ := learn_table_width hlearn
  rw [codePreamble_table, codePreamble_prev] at htbl
  obtain ⟨pl, hpl, hfits, hover⟩ := exists_plane_emitAndMark seq c u.table u.codeSize
    (codePreamble_cursor_le s (hi.busy_ok hb).cursor_ok)
  rw [← learn_eq hlearn] at hfits hover
  rcases Nat.lt_or_ge (s.cfg.cw.toNat * s.cfg.ch.toNat) ((codePreamble s).cursor.toNat + seq.length) with hlt | hle
  · rw [hover hlt]
    refine ⟨codePreamble_prev s, .inr ⟨rfl, u.table, seq, u.codeSize, pl, htbl.imp_right ?_, hseq,
      widthAfter_codePreamble hw, hlt, hpl, rfl⟩⟩
    exact fun ⟨e, hprev, happ⟩ => ⟨e, k, hprev, hk, happ⟩
  · rw [hfits hle] at hf
    have hbusy : (codePreamble s).status.run = .busy := by rw [codePreamble_status, hb]
    exact absurd (hbusy.symm.trans hf) (by decide)

/-- Settles O39: exhausted input is tested before the fetch, an invalid code before EMIT, and `EOI` ends whatever the
cursor is. -/
theorem eventsHaveTheirPriority : Obligations.EventsHaveTheirPriority := by
  intro s hb hd
  have hcode : ∀ {c i}, fetch s = .code c → decodeCode (codeCtx s) c = i →
      step s = exec i { s with turns := s.turns.tail } := fun {c i} hf hi =>
    hi ▸ stepRunsTheDecodedCode.2 s c hb hd hf
  refine ⟨fun hfew => ?_, fun c hf hc hbad => ?_, fun c hf hc => ?_⟩
  · refine ⟨_, (step_decoder hd).trans (decoderTurn_exhausted hb ((exhausted_iff s).2 hfew)), ?_⟩
    rw [exhaustedInput_eq]
    exact ⟨rfl, rfl, rfl⟩
  · exact ⟨_, (hcode hf (decodeCode_bad hc hbad)).trans (badCodeFaults.2 c _), rfl, rfl⟩
  · exact ⟨_, (hcode hf (decodeCode_eoi hc)).trans (eoiEndsTheFrameDecode _), rfl, rfl, rfl⟩

/-- Settles O43, by the case of the turn: the decoder rests, and of the host's accesses only START writes the status. -/
theorem endStatesAreSticky : Obligations.EndStatesAreSticky := by
  intro s t hend hnr hns h
  rcases step_cases h with ⟨hd, -⟩ | ⟨a, ts, hts, hhost⟩ | ⟨ts, hts, -⟩
  · rw [decoderRestsWhenNotBusy s (run_ne_busy_of_ended hend) hd] at h
    cases h
    rfl
  · exact exec_host_status (s := { s with turns := ts }) (hns _ ts hts) hhost
  · exact absurd hts (hnr ts)

/-- Settles O50: the flag in `DONE` and the cause in `FAULT` tell the five ends apart. -/
theorem frameDecodeEndsInFiveWays : Obligations.FrameDecodeEndsInFiveWays := by
  intro s hi hend
  rw [regRead_cause_field]
  rcases hi.ended_cases hend with ⟨hrun, heoi, hcause⟩ | ⟨hrun, heoi, htrunc, hcause⟩
  · cases htrunc : s.status.trunc with
    | false =>
      rw [regRead_status_eq (v := 0x6#32) (by rw [hrun, heoi, htrunc]; rfl), hcause]
      decide
    | true =>
      rw [regRead_status_eq (v := 0xA#32) (by rw [hrun, heoi, htrunc]; rfl), hcause]
      decide
  · rw [regRead_status_eq (v := 0x3#32) (by rw [hrun, heoi, htrunc]; rfl)]
    cases hc : s.status.cause with
    | none => exact absurd hc hcause
    | badParam => decide
    | badCode => decide
    | decodeOverrun => decide

/-- Settles O34: the fault entry field by field, and the decoder at rest when not `BUSY`. -/
theorem faultEntryRecordsTheStartBit : Obligations.FaultEntryRecordsTheStartBit := fun _ _ _ =>
  ⟨rfl, decoderTurn_not_busy (by simp)⟩

end Sys2Proof.Claims

end

/-! ## Reset and hazards (70_reset_and_hazards.md R170, R171, R173): what a hardware reset clears, what a START forgets,
and which input a launch may read -/

section

namespace Sys2Proof.Machine

open Claims (BadStart InputWritten)

/-! ### Unwritten input (R173) -/

/-- With every byte of the frame's input written, a fetch finds a code or exhausted input (41_fetch.md R101, R102). -/
theorem fetch_ne_unwritten {s : State} (hw : InputWritten s) : fetch s ≠ .unwritten := by
  cases he : exhausted s with
  | true => simp [fetch, he]
  | false =>
    obtain ⟨c, hc⟩ := fetch_code_of_written hw he
    simp [hc]

/-- A launch whose frame has an unwritten input byte has no meaning (log 4). -/
theorem exec_start_unwritten {s : State} (hb : s.status.run ≠ .busy) (hp : ¬BadStart s) (hw : ¬InputWritten s) :
    exec .start s = .refused .unwrittenInput := by
  have hgood : ¬badParams s = true := mt (badParams_iff s).1 hp
  have huncovered : ¬Memory.covers s.input s.cfg.inLen.toNat = true := mt (Memory.covers_iff _ _).1 hw
  rw [execStart_not_busy hb, startFrame, if_neg hgood, if_neg huncovered]

/-! ### START from two states with the same configuration (R171) -/

/-- `BadParam` depends on the parameters and the configuration alone (40_host_commands.md R92 step 2). -/
theorem badStart_congr {s t : State} (hparams : s.params = t.params) (hcfg : s.cfg = t.cfg) :
    BadStart s ↔ BadStart t := by
  rw [BadStart, BadStart, hparams, hcfg]

/-- Whether the frame's input was written depends on IN below `INLEN` alone. -/
theorem inputWritten_of_agree {s t : State} (hcfg : s.cfg = t.cfg)
    (hin : ∀ a, a < s.cfg.inLen.toNat → Memory.read s.input a = Memory.read t.input a) (hw : InputWritten s) :
    InputWritten t := fun a ha => by
  rw [← hcfg] at ha
  rw [← hin a ha]
  exact hw a ha

/-- START clears or rebuilds every field of the frame decode but the configuration and IN: the plane of the canvas holds
0 throughout (40_host_commands.md R92 steps 1, 3 and 4). -/
theorem sameFrame_launch {s t : State} (hparams : s.params = t.params) (hcfg : s.cfg = t.cfg)
    (hin : ∀ a, a < s.cfg.inLen.toNat → Memory.read s.input a = Memory.read t.input a) :
    SameFrame (launch (clearResults s)) (launch (clearResults t)) where
  params_eq := hparams
  cfg_eq := hcfg
  status_eq := rfl
  codeSize_eq := by simp [hcfg]
  hasPrev_eq := rfl
  prev_eq := rfl
  cursor_eq := rfl
  bytePos_eq := rfl
  bitOff_eq := rfl
  table_eq := by simp [hcfg]
  input_eq := hin
  plane_eq := fun a ha => by
    have hs : a < canvas (clearResults s) := ha
    have ht : a < canvas (clearResults t) := by
      rw [canvas, clearResults_cfg, ← hcfg]
      exact hs
    rw [launch_plane, launch_plane, Memory.read_zeroBelow, Memory.read_zeroBelow, if_pos hs, if_pos ht]

/-! ### Hardware reset (R170) -/

theorem step_reset {s : State} {ts : List Turn} (h : s.turns = .reset :: ts) :
    step s = .next (hardwareReset { s with turns := ts }) := by
  rw [step, h]
  rfl

/-- The registers do not show what hardware reset keeps: the parameters and the record of the outside. -/
theorem regRead_hardwareReset (s : State) (n : RegNum) : regRead (hardwareReset s) n = 0#32 := by
  obtain ⟨-, -, -, -, -, -, -, -, -, hreset, -⟩ := Claims.resetStateIsAsSpecified
  exact hreset n

end Sys2Proof.Machine

namespace Sys2Proof.Claims

open Sys2Proof.Machine

/-- Settles O6, from the case split of a fetch and the two checks of a launch. -/
theorem unwrittenInputIsNeverRead : Obligations.UnwrittenInputIsNeverRead :=
  ⟨fun _ => fetch_ne_unwritten, fun _ => exec_start_unwritten⟩

/-- Settles O52: both STARTs launch, since what they check is shared, and what a launch builds is shared too. -/
theorem startForgetsTheEarlierFrame : Obligations.StartForgetsTheEarlierFrame := by
  intro s t hs ht hparams hcfg hw hin hp
  have hpt : ¬BadStart t := mt (badStart_congr hparams hcfg).2 hp
  have hwt : InputWritten t := inputWritten_of_agree hcfg hin hw
  exact ⟨_, _, exec_start_launch hs hp hw, exec_start_launch ht hpt hwt, sameFrame_launch hparams hcfg hin⟩

/-- Settles O2: the turn is the reset itself, which reads as 0 everywhere and holds no byte of either memory. -/
theorem hardwareResetFromAnyState : Obligations.HardwareResetFromAnyState := fun _ _ hts =>
  ⟨_, step_reset hts, regRead_hardwareReset _, rfl, rfl, fun _ => rfl, fun _ => rfl, rfl, rfl, rfl, rfl, rfl⟩

end Sys2Proof.Claims

end
